-- ==== Sys2Proof/Word.lean ====
section
/-! DEFINITION. The fixed widths of FCE's bit strings and registers.
A bit string of length `n` is a `BitVec n` whose FIRST bit is its most significant bit
(spec/00_scope.md rules R9 and R12). -/

namespace Sys2Proof

/-- One character code, one buffer byte (rule R64). -/
abbrev Byte := BitVec 8

/-- One bus word: a register of rule R34, a word of a table window. -/
abbrev Word := BitVec 32

/-- A 64-bit block, and the 64-bit derived key (rule R6, BLOCK_BITS and KEY_BITS). -/
abbrev Block := BitVec 64

/-- A half block, the input and output of the round function (rule R6, HALF_BITS). -/
abbrev Half := BitVec 32

/-- A round key, and an expanded half block (rule R6, RK_BITS). -/
abbrev RoundKey := BitVec 48

/-- One of the halves `C`, `D` of the key schedule (rules R6 and R144). -/
abbrev KeyHalf := BitVec 28

end Sys2Proof
end

