-- ==== Sys2Proof/Syntax.lean ====
section
/-! DEFINITION. The command words of FCE as syntax (spec/30_encoding.md rules R90 to R93). -/

namespace Sys2Proof

/-- The nine commands, one constructor per row of spec/opcode_table.json. A command has no register
operand and no immediate (rules R90 and R97). -/
inductive Instr where
  /-- Do nothing (rule R220). -/
  | nop
  /-- Generate all tables from `SEED` (rule R122). -/
  | gen
  /-- Derive the key and build the round keys (rule R150). -/
  | ksched
  /-- Clear the error latch (rule R221). -/
  | clrerr
  /-- Encrypt the block register in place (rule R187). -/
  | blkenc
  /-- Decrypt the block register in place (rule R188). -/
  | blkdec
  /-- Encrypt the message buffer in place (rule R209). -/
  | msgenc
  /-- Decrypt the message buffer in place (rule R210). -/
  | msgdec
  /-- Soft reset (rule R222). -/
  | srst
  deriving DecidableEq, Repr

/-- The two formats of a command word (rules R91 and R92). -/
inductive Format where
  /-- No field beside the opcode. -/
  | z
  /-- A direction bit beside the opcode. -/
  | d
  deriving DecidableEq, Repr

/-- The three fields of a command word, before any check (rules R91 and R92): bits [31:9], bit [8] and
bits [7:0]. -/
structure RawCommand where
  /-- Bits [31:9], reserved. -/
  reserved : BitVec 23
  /-- Bit [8]: `dir` in format D, reserved in format Z. -/
  dir : BitVec 1
  /-- Bits [7:0], the opcode. -/
  opc : BitVec 8
  deriving DecidableEq, Repr

/-- The format column of rule R93. -/
def Instr.format : Instr → Format
  | .nop => .z
  | .gen => .z
  | .ksched => .z
  | .clrerr => .z
  | .blkenc => .d
  | .blkdec => .d
  | .msgenc => .d
  | .msgdec => .d
  | .srst => .z

end Sys2Proof
end

