-- ==== Sys2Proof/WellFormed.lean ====
section
/-! DEFINITION. When the three fields of a command word make a command (spec/30_encoding.md rules R91,
R92 and R95). Three checks, each refusing on its own. -/

namespace Sys2Proof

/-- Bits [31:9] must be 0 (rules R91 and R92). -/
def RawCommand.reservedOk (r : RawCommand) : Bool := r.reserved == 0#23

/-- The opcode is one of {0x00, 0x01, 0x02, 0x03, 0x10, 0x11, 0xFF} (rule R95). -/
def RawCommand.opcodeOk (r : RawCommand) : Bool :=
  [0x00#8, 0x01#8, 0x02#8, 0x03#8, 0x10#8, 0x11#8, 0xFF#8].contains r.opc

/-- Only format D, opcodes 0x10 and 0x11, has a direction bit; in format Z bit [8] must be 0 (rule R91). -/
def RawCommand.directionOk (r : RawCommand) : Bool :=
  r.dir == 0#1 || [0x10#8, 0x11#8].contains r.opc

/-- The fields of a legal command word. -/
def RawCommand.wellFormed (r : RawCommand) : Bool :=
  r.reservedOk && r.opcodeOk && r.directionOk

end Sys2Proof
end

