-- ==== Sys2Proof/Decode.lean ====
section
/-! DEFINITION. Decoding of a command word, total on every 32-bit word, rejecting by name
(spec/30_encoding.md rules R90 to R98), and the encoder written from the same table (rule R93). -/

namespace Sys2Proof

/-- Why a word is no command. Every one of these has the same effect on the machine, `E_ILLCMD`
(rule R95). -/
inductive DecodeError where
  /-- A bit of [31:9] is set. -/
  | reservedBits
  /-- Bits [7:0] are none of the seven assigned opcodes. -/
  | unassignedOpcode
  /-- Bit [8] is set beside a format Z opcode. -/
  | directionOnFormatZ
  deriving DecidableEq, Repr

/-- Cut a command word into its fields (rules R91 and R92). -/
def RawCommand.ofWord (w : Word) : RawCommand where
  reserved := w.extractLsb' 9 23
  dir := w.extractLsb' 8 1
  opc := w.extractLsb' 0 8

/-- Put the fields of a command word together again. -/
def RawCommand.toWord (r : RawCommand) : Word := r.reserved ++ r.dir ++ r.opc

/-- One row of the opcode map of rule R93. -/
structure OpcodeRow where
  /-- The `dir` column (0 for format Z, whose bit [8] is reserved and 0). -/
  dir : BitVec 1
  /-- The `opc` column. -/
  opc : BitVec 8
  /-- The command selected. -/
  instr : Instr
  deriving DecidableEq, Repr

/-- The opcode map of rules R93 and R94, in the order of rule R93. -/
def opcodeMap : List OpcodeRow :=
  [⟨0#1, 0x00#8, .nop⟩, ⟨0#1, 0x01#8, .gen⟩, ⟨0#1, 0x02#8, .ksched⟩, ⟨0#1, 0x03#8, .clrerr⟩,
   ⟨0#1, 0x10#8, .blkenc⟩, ⟨1#1, 0x10#8, .blkdec⟩, ⟨0#1, 0x11#8, .msgenc⟩, ⟨1#1, 0x11#8, .msgdec⟩,
   ⟨0#1, 0xFF#8, .srst⟩]

/-- The case distinction of rule R94 on `(w[8], w[7:0])`. -/
def selectCommand (dir : BitVec 1) (opc : BitVec 8) : Option Instr :=
  (opcodeMap.find? fun r => r.dir == dir && r.opc == opc).map OpcodeRow.instr

/-- Decoding of a 32-bit word written to `CMD` (rule R94). It reads no state. -/
def decodeWord (w : Word) : Except DecodeError Instr :=
  let r := RawCommand.ofWord w
  if r.reserved ≠ 0#23 then .error .reservedBits
  else match selectCommand r.dir r.opc with
    | some i => .ok i
    | none => if r.opcodeOk then .error .directionOnFormatZ else .error .unassignedOpcode

/-- The fields of a command, from the columns `dir` and `opc` of rule R93. -/
def Instr.fields : Instr → RawCommand
  | .nop => ⟨0#23, 0#1, 0x00#8⟩
  | .gen => ⟨0#23, 0#1, 0x01#8⟩
  | .ksched => ⟨0#23, 0#1, 0x02#8⟩
  | .clrerr => ⟨0#23, 0#1, 0x03#8⟩
  | .blkenc => ⟨0#23, 0#1, 0x10#8⟩
  | .blkdec => ⟨0#23, 1#1, 0x10#8⟩
  | .msgenc => ⟨0#23, 0#1, 0x11#8⟩
  | .msgdec => ⟨0#23, 1#1, 0x11#8⟩
  | .srst => ⟨0#23, 0#1, 0xFF#8⟩

/-- Well-formedness of a command: its fields pass the three checks. A command has no operand that
could fail one. -/
def Instr.wellFormed (i : Instr) : Bool := i.fields.wellFormed

/-- The one word of a command (rules R93 and R98). -/
def encode (i : Instr) : Word := i.fields.toWord

/-- The command this decoder reads from a row of spec/opcode_table.json whose `nbits` bits are `w`
(bit 0 the least significant, as in rules R91 and R92). A command is 32 bits (rule R98), so a longer
row is none; the bits above a shorter row are 0 (DESIGN CHOICE, notes/assumptions/15.md). -/
def decodeTableWord (nbits w : Nat) : Option Instr :=
  if nbits ≤ 32 then (decodeWord (BitVec.ofNat 32 (w % 2 ^ nbits))).toOption else none

end Sys2Proof
end

