-- ==== Sys2Proof/Machine/BitString.lean ====
section
/-! DEFINITION. Bit strings (spec/00_scope.md rules R9 to R13): positions, table select, rotations, and
a block as eight bytes (spec/20_memory.md rules R64 and R65). A bit string of length `n` is a `BitVec n`,
first bit most significant (rule R12). -/

namespace Sys2Proof.Machine

/-- `bit(s, i) = v[n - i]` for `1 ≤ i ≤ n` (rules R9 and R12). A position outside `1..n`, which no rule
reads, answers 0: DESIGN CHOICE, notes/assumptions/9.md. -/
def bit {n : Nat} (s : BitVec n) (i : Nat) : Bool :=
  decide (1 ≤ i ∧ i ≤ n) && s.getLsbD (n - i)

/-- `sel(s, T)` (rule R10): bit `i` of the result is bit `T[i]` of `s`. -/
def sel {n k m : Nat} (s : BitVec n) (t : Vector (BitVec k) m) : BitVec m :=
  BitVec.ofFnBE fun i => bit s (t.get i).toNat

/-- `rotl(s, k)` on 28 bits (rule R13): the first `k mod 28` bits move to the end. -/
def rotl (s : KeyHalf) (k : Nat) : KeyHalf := s.rotateLeft k

/-- `rotr(s, k)` on 28 bits (rule R13): the last `k mod 28` bits move to the front. -/
def rotr (s : KeyHalf) (k : Nat) : KeyHalf := s.rotateRight k

/-- Eight bytes as a block, the first byte in the most significant place (rules R63 to R65). -/
def packBlock (f : Nat → Byte) : Block :=
  f 0 ++ f 1 ++ f 2 ++ f 3 ++ f 4 ++ f 5 ++ f 6 ++ f 7

/-- Byte `k` of a block, `slice(s, 8k+1, 8k+8)` (rule R63). -/
def blockByte (b : Block) (k : Nat) : Byte := b.extractLsb' (56 - 8 * k) 8

end Sys2Proof.Machine
end

