-- ==== Sys2Proof/Machine/Lcg.lean ====
section
/-! DEFINITION. The functions of FCE1's generator `LCG32` (spec/40_table_generator.md rule R112).
Config.lean makes them the configuration's `PRNG`. -/

namespace Sys2Proof.Machine

/-- The next state of `LCG32`: `(1664525·s + 1013904223) mod 2^32` (rule R112). -/
def lcgNext (s : Word) : Word := 1664525#32 * s + 1013904223#32

/-- `seed_init` of `LCG32`: the seed is the first state (rule R112). -/
def lcgSeed (seed : Word) : Word := seed

/-- `below` of `LCG32`: the upper 16 bits of the next state, modulo `n` (rule R112). -/
def lcgBelow (s : Word) (n : Nat) : Word × Nat := (lcgNext s, (lcgNext s).toNat / 65536 % n)

/-- What rule R110 asks of a draw. -/
theorem lcgBelow_lt (s : Word) (n : Nat) (h : 1 ≤ n) : (lcgBelow s n).2 < n := Nat.mod_lt _ h

end Sys2Proof.Machine
end

