-- ==== Sys2Proof/Config.lean ====
section
/-! DEFINITION. What an FCE implementation fixes (spec/00_scope.md rules R7 and R8): the generator `PRNG`,
the shift schedule `SHIFTS`, the buffer size `MSG_MAX`, and the constant of the register `ID`. -/

namespace Sys2Proof.Config

/-- The parameter `PRNG` of rule R110: a state type, `seed_init` on 32-bit seeds, and `below`, which
answers the next state and a number below `n` for every `n ≥ 1`. Nothing else is assumed of it. -/
structure Prng where
  /-- The running generator state. -/
  St : Type
  /-- `seed_init`, on the seeds a 32-bit register can hold. -/
  seedInit : Word → St
  /-- `below(g, n)`: the next state and the drawn number. -/
  below : St → Nat → St × Nat
  /-- The one thing rule R110 asks of a draw. -/
  below_lt : ∀ g n, 1 ≤ n → (below g n).2 < n

/-- The reference instance `LCG32` (rule R112). -/
def lcg32 : Prng where
  St := Word
  seedInit := Machine.lcgSeed
  below := Machine.lcgBelow
  below_lt := Machine.lcgBelow_lt

/-- `PRNG` (rules R7, R8 and R110): FCE1's value, `LCG32` (rule R112). The machine draws its tables with
nothing else. DESIGN CHOICE, the spec's own: notes/assumptions/4.md. -/
def prng : Prng := lcg32

/-- `SHIFTS[1..16]` (rule R23): FCE1's values, the parameter's default. Entry `k` here is `SHIFTS[k+1]`.
DESIGN CHOICE, the spec's own: notes/assumptions/6.md. -/
def shifts : Vector Nat 16 := #v[1, 1, 2, 2, 2, 2, 2, 2, 1, 2, 2, 2, 2, 2, 2, 1]

/-- `MSG_MAX` (rules R7 and R31): the capacity of the message buffer in bytes, FCE1's default.
DESIGN CHOICE, the spec's own: notes/assumptions/7.md. -/
def msgMax : Nat := 256

/-- The constant of register `ID` (rule R35): the ASCII bytes "F", "C", "E", "1". -/
def idWord : Word := 0x46434531#32

end Sys2Proof.Config
end

