-- ==== Sys2Proof/Machine/State.lean ====
section
/-! DEFINITION. The architectural state of FCE (spec/10_state.md rules R20 to R31 and R45), the host
operations and their responses (spec/20_memory.md rules R60 and R61), and the reset state. -/

namespace Sys2Proof.Machine

/-- FCE never stops: every host operation has a response and every command word one behaviour
(rules R46, R61 and R96). No constructor, so no step can answer a fault. Safe: nothing raises it. -/
inductive Fault where
  deriving DecidableEq, Repr

/-- Why the model has no meaning for a command. -/
inductive Refusal where
  /-- The command of this mnemonic has no meaning in the model yet. Raised by no arm of `exec`.
  Safe: the model stops where the hardware goes on. -/
  | notModelled (mnemonic : String)
  deriving DecidableEq, Repr

/-- The codes of the error latch `ERR` (rule R234). FCE1 never produces the codes 8 to 15.
DESIGN CHOICE to leave them out: notes/assumptions/10.md. -/
inductive ErrCode where
  /-- 0, `E_OK`: no refused operation since the latch was last cleared. -/
  | ok
  /-- 1, `E_ILLCMD`: the word written to `CMD` is not one of the nine commands. -/
  | illcmd
  /-- 2, `E_NOTBL`: `KSCHED` with `TBLV = 0`. -/
  | notbl
  /-- 3, `E_NOKEY`: a block or message command with `RKV = 0`. -/
  | nokey
  /-- 4, `E_KEY`: `KSCHED` with `KLEN = 0`. -/
  | key
  /-- 5, `E_MSG`: a message command with `MLEN = 0`. -/
  | msg
  /-- 6, `E_LOCKED`: `GEN` or a write to `SEED` with `TBLV = 1`. -/
  | locked
  /-- 7, `E_RANGE`: a write above `MSG_MAX` to `MLEN`. -/
  | range
  deriving DecidableEq, Repr

/-- The generated tables with the storage widths of rule R24. Entry `k` of a vector is entry `k + 1` of
a 1-indexed table of the spec (rule R15). -/
structure Tables where
  /-- First permuted choice. -/
  pc1 : Vector (BitVec 6) 56
  /-- Second permuted choice, of which the first 48 entries are applied. -/
  pc2 : Vector (BitVec 6) 56
  /-- Expansion table. -/
  e : Vector (BitVec 6) 48
  /-- S-boxes, `s[b][r][c]`. -/
  s : Vector (Vector (Vector (BitVec 4) 16) 4) 8
  /-- 32-bit permutation table. -/
  p : Vector (BitVec 6) 32
  /-- 64-bit table, dead data. -/
  ip : Vector (BitVec 7) 64
  /-- 64-bit table, dead data. -/
  ipinv : Vector (BitVec 7) 64
  deriving DecidableEq, Repr

/-- The reset value of the tables (rule R45): every entry 0. DESIGN CHOICE to hold it rather than an absent
value: notes/assumptions/8.md. -/
def Tables.zero : Tables where
  pc1 := Vector.replicate 56 0#6
  pc2 := Vector.replicate 56 0#6
  e := Vector.replicate 48 0#6
  s := Vector.replicate 8 (Vector.replicate 4 (Vector.replicate 16 0#4))
  p := Vector.replicate 32 0#6
  ip := Vector.replicate 64 0#7
  ipinv := Vector.replicate 64 0#7

/-- The message buffer as cells (index, byte), indices strictly rising and no cell equal to what an
unlisted index reads as. DESIGN CHOICE of the form: notes/assumptions/12.md. -/
abbrev Memory := List Host.Cell

/-- The width of a bus access (rule R60). -/
inductive Width where
  /-- 1 byte. -/
  | w1
  /-- 2 bytes. -/
  | w2
  /-- 4 bytes. -/
  | w4
  deriving DecidableEq, Repr

/-- The value of a bus write, of `8·w` bits (rule R60). -/
inductive BusData where
  /-- `w = 1`. -/
  | b8 (v : BitVec 8)
  /-- `w = 2`. -/
  | b16 (v : BitVec 16)
  /-- `w = 4`. -/
  | b32 (v : BitVec 32)
  deriving DecidableEq, Repr

/-- One host operation (rules R16, R46 and R60); `off` is a byte offset from the base of the region. -/
inductive HostOp where
  /-- `BusRead(off, w)`. -/
  | read (off : BitVec 16) (w : Width)
  /-- `BusWrite(off, w, v)`. -/
  | write (off : BitVec 16) (d : BusData)
  /-- The reset input. -/
  | hardReset
  deriving DecidableEq, Repr

/-- The response to one host operation (rule R61). -/
inductive Resp where
  /-- `Ok(value)` of a 4-byte read. -/
  | word (v : BitVec 32)
  /-- `Ok(value)` of a 1-byte read. -/
  | byte (v : BitVec 8)
  /-- `Ok` of an accepted write, and of the reset input. -/
  | ok
  /-- `BusError`: the operation is not accepted. -/
  | busError
  deriving DecidableEq, Repr

/-- The machine: every element of rule R20, then the two ends of the bus port (the model's own). -/
@[ext]
structure State where
  /-- `SEED`, 32 bits (rule R21). -/
  seed : BitVec 32
  /-- `TBLV`, 1 bit (rule R22). -/
  tblv : Bool
  /-- `PC1`, `PC2`, `E`, `S`, `P`, `IP`, `IPINV` (rule R24). -/
  tables : Tables
  /-- `KBUF[0..7]` (rule R25). -/
  kbuf : Vector (BitVec 8) 8
  /-- `KLEN`, 0 to 8 (rule R26). -/
  klen : Fin 9
  /-- `KEY`, 64 bits (rule R27). -/
  key : BitVec 64
  /-- `RK[1..16]`, 48 bits each (rule R28); entry `i` here is `RK[i+1]`. -/
  rk : Vector (BitVec 48) 16
  /-- `RKV`, 1 bit (rule R29). -/
  rkv : Bool
  /-- `BLK`, 64 bits (rule R30). -/
  blk : BitVec 64
  /-- `MBUF[0..MSG_MAX-1]` (rule R31). -/
  mbuf : Memory
  /-- `MLEN`, 0 to `MSG_MAX` (rule R31). -/
  mlen : Fin (Config.msgMax + 1)
  /-- `ERR`, the error latch (rule R234). -/
  err : ErrCode
  /-- The host operations not yet issued, the next one first (rules R76 and R101). The model's own, DESIGN
  CHOICE: notes/assumptions/1.md. -/
  pending : List HostOp
  /-- The responses given so far, the oldest first (rules R61 and R101). The model's own, DESIGN CHOICE:
  notes/assumptions/2.md. -/
  responses : List Resp
  deriving DecidableEq, Repr

/-- The state after reset (rule R45): every element 0, nothing pending, nothing answered. -/
def State.reset : State where
  seed := 0#32
  tblv := false
  tables := Tables.zero
  kbuf := Vector.replicate 8 0#8
  klen := 0
  key := 0#64
  rk := Vector.replicate 16 0#48
  rkv := false
  blk := 0#64
  mbuf := []
  mlen := 0
  err := .ok
  pending := []
  responses := []

end Sys2Proof.Machine
end

