-- ==== Sys2Proof/Machine/Ops.lean ====
section
/-! DEFINITION. The operations every family shares: the message buffer as memory (spec/20_memory.md rules
R63 and R71), the updates of one state element, raising an error (spec/60_exceptions.md rules R236 and
R239), resetting the engine (spec/70_reset_and_hazards.md rule R260), and giving a response (rule R61). -/

namespace Sys2Proof.Machine

/-! ### The message buffer -/

/-- What an index with no cell reads as: the reset contents of `MBUF` (rule R45). -/
def Memory.unlisted : Byte := 0#8

/-- `MBUF[a]`. -/
def Memory.read : Memory → Nat → Byte
  | [], _ => Memory.unlisted
  | (k, b) :: m, a => if k = a then b else Memory.read m a

/-- The cell list with index `a` in front, unless it would say what an unlisted index reads as. -/
def Memory.cons (a : Nat) (b : Byte) (m : Memory) : Memory :=
  if b = Memory.unlisted then m else (a, b) :: m

/-- `MBUF[a] <- b`, keeping the canonical form. -/
def Memory.write : Memory → Nat → Byte → Memory
  | [], a, b => Memory.cons a b []
  | (k, c) :: m, a, b =>
    if a < k then Memory.cons a b ((k, c) :: m)
    else if a = k then Memory.cons a b m
    else (k, c) :: Memory.write m a b

/-- The canonical form: indices strictly rising and below `MSG_MAX`, no cell equal to what an unlisted
index reads as. -/
def Memory.wf (m : Memory) : Bool :=
  decide (m.Pairwise fun x y => x.1 < y.1) &&
    m.all fun c => decide (c.1 < Config.msgMax) && decide (c.2 ≠ Memory.unlisted)

/-- `MemRead(a, n) ++ zeros(64 - 8n)` for `n ≤ 8` (rules R63 and R204): a chunk of `n` bytes, padded on
the right with zero bits to a block. -/
def memReadPadded (m : Memory) (a n : Nat) : Block :=
  packBlock fun k => if k < n then Memory.read m (a + k) else 0#8

/-- `MemWrite(a, n, slice(b, 1, 8n))` for `n ≤ 8` (rule R63): the first `n` bytes of a block. -/
def memWriteBytes (m : Memory) (a : Nat) (b : Block) : Nat → Memory
  | 0 => m
  | n + 1 => Memory.write (memWriteBytes m a b n) (a + n) (blockByte b n)

/-! ### Updates of one element -/

/-- `SEED <- v`. -/
def State.setSeed (s : State) (v : Word) : State := { s with seed := v }

/-- The effect of a successful `GEN` on the state: the tables, and `TBLV <- 1`. -/
def State.setTables (s : State) (t : Tables) : State := { s with tables := t, tblv := true }

/-- `KBUF[i] <- b`. -/
def State.setKbuf (s : State) (i : Fin 8) (b : Byte) : State := { s with kbuf := s.kbuf.set i b }

/-- `KLEN <- n`. -/
def State.setKlen (s : State) (n : Fin 9) : State := { s with klen := n }

/-- The effect of a successful `KSCHED` on the state: `KEY`, `RK`, and `RKV <- 1`. -/
def State.setKeys (s : State) (k : Block) (rk : Vector RoundKey 16) : State :=
  { s with key := k, rk := rk, rkv := true }

/-- `BLK <- b`. -/
def State.setBlk (s : State) (b : Block) : State := { s with blk := b }

/-- The whole message buffer. -/
def State.setMbuf (s : State) (m : Memory) : State := { s with mbuf := m }

/-- `MLEN <- n`. -/
def State.setMlen (s : State) (n : Fin (Config.msgMax + 1)) : State := { s with mlen := n }

/-- `ERR <- c`. -/
def State.setErr (s : State) (c : ErrCode) : State := { s with err := c }

/-- The host operations left to issue. -/
def State.setPending (s : State) (l : List HostOp) : State := { s with pending := l }

/-- The response to the operation just handled (rule R61), in the order of the operations (rule R101). -/
def State.respond (s : State) (r : Resp) : State := { s with responses := s.responses ++ [r] }

/-! ### Errors and reset -/

/-- `raise Err(code)` (rule R236): the latch keeps the first error; nothing else changes and the
operation ends. This is FCE's whole exception entry. -/
def raiseErr (c : ErrCode) (s : State) : State :=
  if s.err = .ok then s.setErr c else s

/-- An operation that ends with `raise Err(code)`: the machine goes on in the latched state. -/
def refuse (c : ErrCode) (s : State) : Host.Outcome State Fault Refusal := .next (raiseErr c s)

/-- The host's acknowledgement of an error, `ERR <- 0` (rules R221 and R239). This is FCE's whole return
from an exception. -/
def clearErr (s : State) : State := s.setErr .ok

/-- Reset of the engine (rules R45 and R260): every element of rule R20 takes its reset value. The two
ends of the bus port belong to the host and stay: DESIGN CHOICE, notes/assumptions/5.md. -/
def resetEngine (s : State) : State :=
  { State.reset with pending := s.pending, responses := s.responses }

end Sys2Proof.Machine
end

