-- ==== Sys2Proof/Machine/Control.lean ====
section
/-! DEFINITION. The control commands (spec/45_control_commands.md rules R220 to R222). -/

namespace Sys2Proof.Machine

/-- `NOP` (rule R220): no state change, the latch included. -/
def execNop (s : State) : Host.Outcome State Fault Refusal := .next s

/-- `CLRERR` (rule R221). -/
def execClrerr (s : State) : Host.Outcome State Fault Refusal := .next (clearErr s)

/-- `SRST` (rule R222), never refused. -/
def execSrst (s : State) : Host.Outcome State Fault Refusal := .next (resetEngine s)

end Sys2Proof.Machine
end

