-- ==== Sys2Proof/Machine/RoundFunction.lean ====
section
/-! DEFINITION. The round function `F` (spec/42_round_function.md rules R160 to R169). -/

namespace Sys2Proof.Machine

/-- `X = xor(sel(R, E), K)` (rules R161 and R162). -/
def mixedHalf (t : Tables) (r : Half) (k : RoundKey) : RoundKey := sel r t.e ^^^ k

/-- Group `g` of `X`, six bits, `X[47-6g : 42-6g]` (rules R163 and R168). -/
def sixBits (x : RoundKey) (g : Nat) : BitVec 6 := x.extractLsb' (42 - 6 * g) 6

/-- The row selector `b1 ++ b6` (rule R164). -/
def rowOf (b : BitVec 6) : BitVec 2 := b.extractLsb' 5 1 ++ b.extractLsb' 0 1

/-- The column selector `b2 b3 b4 b5` (rule R164). -/
def colOf (b : BitVec 6) : BitVec 4 := b.extractLsb' 1 4

/-- `N[g]`, the four bits of `S[g][row][col]` (rule R165). -/
def substitute (t : Tables) (x : RoundKey) (g : Fin 8) : BitVec 4 :=
  ((t.s.get g).get (rowOf (sixBits x g.val)).toFin).get (colOf (sixBits x g.val)).toFin

/-- `Y = N[0] ++ N[1] ++ ... ++ N[7]` (rule R166). -/
def substituted (t : Tables) (x : RoundKey) : Half :=
  substitute t x 0 ++ substitute t x 1 ++ substitute t x 2 ++ substitute t x 3 ++
    substitute t x 4 ++ substitute t x 5 ++ substitute t x 6 ++ substitute t x 7

/-- `F(R, K)` (rule R168): expand, mix with the key, substitute, permute (rule R167). -/
def roundFunction (t : Tables) (r : Half) (k : RoundKey) : Half :=
  sel (substituted t (mixedHalf t r k)) t.p

end Sys2Proof.Machine
end

