-- ==== Sys2Proof/Machine/Feistel.lean ====
section
/-! DEFINITION. The 16-round datapath and the block commands (spec/43_feistel_block.md rules R180 to
R189). -/

namespace Sys2Proof.Machine

/-- One round: `(L, R) <- (R, xor(L, F(R, K)))` (rule R182). -/
def feistelRound (t : Tables) (lr : Half × Half) (k : RoundKey) : Half × Half :=
  (lr.2, lr.1 ^^^ roundFunction t lr.2 k)

/-- `feistel(B, Ks)` (rule R183): split (rule R181), one round per key, final swap (rule R184). -/
def feistel (t : Tables) (b : Block) (ks : List RoundKey) : Block :=
  let lr := ks.foldl (feistelRound t) (b.extractLsb' 32 32, b.extractLsb' 0 32)
  lr.2 ++ lr.1

/-- The direction of a format D command (rule R92). -/
inductive Direction where
  /-- `dir = 0`. -/
  | encrypt
  /-- `dir = 1`. -/
  | decrypt
  deriving DecidableEq, Repr

/-- The order in which a direction reads `RK` (rule R185). -/
def keysFor (rk : Vector RoundKey 16) : Direction → List RoundKey
  | .encrypt => rk.toList
  | .decrypt => rk.toList.reverse

/-- The block commands (rules R187 and R188), which differ in the order of the round keys. -/
def blockCommand (d : Direction) (s : State) : Host.Outcome State Fault Refusal :=
  if s.rkv = false then refuse .nokey s
  else .next (s.setBlk (feistel s.tables s.blk (keysFor s.rk d)))

/-- `BLKENC` (rule R187). -/
def execBlkenc (s : State) : Host.Outcome State Fault Refusal := blockCommand .encrypt s

/-- `BLKDEC` (rule R188). -/
def execBlkdec (s : State) : Host.Outcome State Fault Refusal := blockCommand .decrypt s

end Sys2Proof.Machine
end

