-- ==== Sys2Proof/Machine/Framing.lean ====
section
/-! DEFINITION. The block framer and the message commands (spec/44_message_framing.md rules R200 to
R210). -/

namespace Sys2Proof.Machine

/-- `nb`, the number of blocks of a message of `n` bytes (rule R202). -/
def blockCount (n : Nat) : Nat := (n + 7) / 8

/-- `t`, the number of message bytes in block `j` (rules R203 and R208). -/
def chunkLength (n j : Nat) : Nat := min 8 (n - 8 * j)

/-- The body of the loop of rule R208 for block `j`: read and pad the chunk, transform it, write back its
first `t` bytes. -/
def cryptBlock (t : Tables) (ks : List RoundKey) (n : Nat) (m : Memory) (j : Nat) : Memory :=
  memWriteBytes m (8 * j) (feistel t (memReadPadded m (8 * j) (chunkLength n j)) ks) (chunkLength n j)

/-- The first `nb` blocks in ascending order (rules R81 and R208; DESIGN CHOICE, the spec's own:
notes/assumptions/17.md). -/
def cryptBlocks (t : Tables) (ks : List RoundKey) (n : Nat) (m : Memory) : Nat → Memory
  | 0 => m
  | j + 1 => cryptBlock t ks n (cryptBlocks t ks n m j) j

/-- `crypt(dir)` on the buffer (rule R208). -/
def crypt (d : Direction) (s : State) : Memory :=
  cryptBlocks s.tables (keysFor s.rk d) s.mlen.val s.mbuf (blockCount s.mlen.val)

/-- The message commands (rules R209 and R210), which differ in the order of the round keys. -/
def messageCommand (d : Direction) (s : State) : Host.Outcome State Fault Refusal :=
  if s.rkv = false then refuse .nokey s
  else if s.mlen = 0 then refuse .msg s
  else .next (s.setMbuf (crypt d s))

/-- `MSGENC` (rule R209). -/
def execMsgenc (s : State) : Host.Outcome State Fault Refusal := messageCommand .encrypt s

/-- `MSGDEC` (rule R210). -/
def execMsgdec (s : State) : Host.Outcome State Fault Refusal := messageCommand .decrypt s

end Sys2Proof.Machine
end

