-- ==== Sys2Proof/Machine/Generator.lean ====
section
/-! DEFINITION. The table generator, for any `PRNG`, and `GEN`, with the configuration's
(spec/40_table_generator.md rules R110 to R124). -/

namespace Sys2Proof.Machine

open Sys2Proof.Config (Prng)

/-- The loop of rule R111 from index `i` down to 1: draw `j` below `i + 1`, swap `a[i]` and `a[j]`. -/
def shuffleDown {α : Type} {n : Nat} (p : Prng) : Nat → p.St → Vector α n → p.St × Vector α n
  | 0, g, a => (g, a)
  | i + 1, g, a =>
    let draw := p.below g (i + 2)
    shuffleDown p i draw.1 (a.swapIfInBounds (i + 1) draw.2)

/-- `shuffle(g, a)` (rule R111): `n - 1` draws. -/
def shuffle {α : Type} {n : Nat} (p : Prng) (g : p.St) (a : Vector α n) : p.St × Vector α n :=
  shuffleDown p (n - 1) g a

/-- The ascending list `[1, ..., n]` in `w`-bit entries. -/
def oneUpTo (w n : Nat) : Vector (BitVec w) n := Vector.ofFn fun i => BitVec.ofNat w (i.val + 1)

/-- The ascending list `[0, ..., n-1]` in `w`-bit entries. -/
def zeroUpTo (w n : Nat) : Vector (BitVec w) n := Vector.ofFn fun i => BitVec.ofNat w i.val

/-- `n` things made one after another from one running state, the first made first. -/
def drawMany {σ β : Type} (f : σ → σ × β) : (n : Nat) → σ → σ × Vector β n
  | 0, g => (g, #v[])
  | n + 1, g =>
    let before := drawMany f n g
    let last := f before.1
    (last.1, before.2.push last.2)

/-- `E` (rule R115): two shuffled copies of `[1, ..., 32]`, each of the fresh range, cut to 48. -/
def drawExpansion (p : Prng) (g : p.St) : p.St × Vector (BitVec 6) 48 :=
  let first := shuffle p g (oneUpTo 6 32)
  let second := shuffle p first.1 (oneUpTo 6 32)
  (second.1, Vector.ofFn fun i : Fin 48 => (first.2 ++ second.2)[i.val])

/-- `S` (rule R116): box outer, row inner, each row a shuffle of the fresh `[0, ..., 15]`. -/
def drawSboxes (p : Prng) (g : p.St) : p.St × Vector (Vector (Vector (BitVec 4) 16) 4) 8 :=
  drawMany (drawMany (fun g => shuffle p g (zeroUpTo 4 16)) 4) 8 g

/-- `generate` with the final generator state it discards (rules R113 to R119): one running state through
all tables in the order of rule R118. -/
def generateRun (p : Prng) (seed : Word) : p.St × Tables :=
  let pc1 := shuffle p (p.seedInit seed) (oneUpTo 6 56)
  let pc2 := shuffle p pc1.1 (oneUpTo 6 56)
  let e := drawExpansion p pc2.1
  let s := drawSboxes p e.1
  let perm := shuffle p s.1 (oneUpTo 6 32)
  let ip := shuffle p perm.1 (oneUpTo 7 64)
  let ipinv := shuffle p ip.1 (oneUpTo 7 64)
  (ipinv.1, ⟨pc1.2, pc2.2, e.2, s.2, perm.2, ip.2, ipinv.2⟩)

/-- `generate(seed)` (rule R118). -/
def generate (p : Prng) (seed : Word) : Tables := (generateRun p seed).2

/-- `GEN` (rule R122). -/
def execGen (s : State) : Host.Outcome State Fault Refusal :=
  if s.tblv then refuse .locked s
  else .next (s.setTables (generate Config.prng s.seed))

end Sys2Proof.Machine
end

