-- ==== Sys2Proof/Machine/KeySchedule.lean ====
section
/-! DEFINITION. Key derivation, the key schedule and `KSCHED` (spec/41_key_schedule.md rules R140 to
R150). -/

namespace Sys2Proof.Machine

/-- `derive_key(kb, n)` (rule R141): byte `i` of the key is `kb[i mod n]`. The command evaluates it for
`n ≥ 1` only (rule R142; for 0 see notes/assumptions/16.md, DESIGN CHOICE). -/
def deriveKey (kb : Vector Byte 8) (n : Fin 9) : Block :=
  packBlock fun i => kb.toList.getD (i % n.val) 0#8

/-- `C_0` and `D_0` of rule R144: the halves of `sel(K, PC1)` (rule R143). -/
def initialHalves (k : Block) (pc1 : Vector (BitVec 6) 56) : KeyHalf × KeyHalf :=
  ((sel k pc1).extractLsb' 28 28, (sel k pc1).extractLsb' 0 28)

/-- `C` and `D` after `r` rounds (rules R145 and R146): `C` rotates left, `D` rotates right, each from
where the round before left it. -/
def halvesAfter (shifts : Vector Nat 16) (cd : KeyHalf × KeyHalf) : Nat → KeyHalf × KeyHalf
  | 0 => cd
  | r + 1 =>
    let before := halvesAfter shifts cd r
    let k := shifts.toList.getD r 0
    (rotl before.1 k, rotr before.2 k)

/-- `PC2[1..48]`, the entries that are applied (rule R148). -/
def pc2Used (pc2 : Vector (BitVec 6) 56) : Vector (BitVec 6) 48 := Vector.ofFn fun i : Fin 48 => pc2[i.val]

/-- `schedule(K, PC1, PC2, SHIFTS)` (rule R147); entry `i` here is `RK[i+1]`, made from the halves after
round `i + 1`. -/
def schedule (k : Block) (pc1 pc2 : Vector (BitVec 6) 56) (shifts : Vector Nat 16) : Vector RoundKey 16 :=
  Vector.ofFn fun r : Fin 16 =>
    let cd := halvesAfter shifts (initialHalves k pc1) (r.val + 1)
    sel (cd.1 ++ cd.2) (pc2Used pc2)

/-- `KSCHED` (rule R150). -/
def execKsched (s : State) : Host.Outcome State Fault Refusal :=
  if s.tblv = false then refuse .notbl s
  else if s.klen = 0 then refuse .key s
  else
    let k := deriveKey s.kbuf s.klen
    .next (s.setKeys k (schedule k s.tables.pc1 s.tables.pc2 Config.shifts))

end Sys2Proof.Machine
end

