-- ==== Sys2Proof/Machine/Dispatch.lean ====
section
/-! DEFINITION. One arm per command of spec/30_encoding.md rule R93, in the order of the opcode table. -/

namespace Sys2Proof.Machine

def exec (i : Instr) (s : State) : Host.Outcome State Fault Refusal :=
  match i with
  | .nop => Sys2Proof.Machine.execNop s
  | .gen => Sys2Proof.Machine.execGen s
  | .ksched => Sys2Proof.Machine.execKsched s
  | .clrerr => Sys2Proof.Machine.execClrerr s
  | .blkenc => Sys2Proof.Machine.execBlkenc s
  | .blkdec => Sys2Proof.Machine.execBlkdec s
  | .msgenc => Sys2Proof.Machine.execMsgenc s
  | .msgdec => Sys2Proof.Machine.execMsgdec s
  | .srst => Sys2Proof.Machine.execSrst s

end Sys2Proof.Machine
end

