-- ==== Sys2Proof/Machine/Flags.lean ====
section
/-! DEFINITION. The status bits (spec/10_state.md rules R33 and R37), the numbers of the error codes
(spec/60_exceptions.md rule R234) and the gating of reads by a valid flag (spec/20_memory.md rule R74).
FCE has no condition codes and no flag computed from data. -/

namespace Sys2Proof.Machine

/-- The number of an error code (rule R234). -/
def ErrCode.code : ErrCode → BitVec 4
  | .ok => 0#4
  | .illcmd => 1#4
  | .notbl => 2#4
  | .nokey => 3#4
  | .key => 4#4
  | .msg => 5#4
  | .locked => 6#4
  | .range => 7#4

/-- `STATUS` (rule R37): `ERR` in [11:8], `RKV` in [1], `TBLV` in [0], every other bit 0. -/
def statusWord (s : State) : Word :=
  0#20 ++ s.err.code ++ 0#6 ++ BitVec.ofBool s.rkv ++ BitVec.ofBool s.tblv

/-- A read gated by a valid flag (rule R74): 0 while the flag is 0. -/
def gated (valid : Bool) (v : Word) : Word := if valid then v else 0#32

end Sys2Proof.Machine
end

