-- ==== Sys2Proof/Machine/Operands.lean ====
section
/-! DEFINITION. Where a bus access goes: the register block (spec/10_state.md rule R34), the address map
and the accepted widths (spec/20_memory.md rules R66 to R72), what a location reads as, and what a write to
a register other than `CMD` does (rules R38 to R41, R70 and R71). -/

namespace Sys2Proof.Machine

/-- A location that takes aligned 4-byte accesses only (rule R67). Indices count from 0, as the word
numbers `k` of rule R68 do. -/
inductive WordLoc where
  /-- `ID`. -/
  | id
  /-- `CMD`. -/
  | cmd
  /-- `STATUS`. -/
  | status
  /-- `SEED`. -/
  | seed
  /-- `KLEN`. -/
  | klen
  /-- `MLEN`. -/
  | mlen
  /-- `BLK_HI`. -/
  | blkHi
  /-- `BLK_LO`. -/
  | blkLo
  /-- `KEY_HI`. -/
  | keyHi
  /-- `KEY_LO`. -/
  | keyLo
  /-- `CAP`. -/
  | cap
  /-- `PC1[k+1]`. -/
  | pc1 (k : Fin 56)
  /-- `PC2[k+1]`. -/
  | pc2 (k : Fin 56)
  /-- `SHIFTS[k+1]`. -/
  | shifts (k : Fin 16)
  /-- `E[k+1]`. -/
  | e (k : Fin 48)
  /-- `P[k+1]`. -/
  | p (k : Fin 32)
  /-- `IP[k+1]`. -/
  | ip (k : Fin 64)
  /-- `IPINV[k+1]`. -/
  | ipinv (k : Fin 64)
  /-- `S[b][r][c]` with `k = 64b + 16r + c`. -/
  | s (k : Fin 512)
  /-- Word `k` of the round-key window: `RK[k/2 + 1]`, high word for even `k`, low word for odd `k`. -/
  | rk (k : Fin 32)
  deriving DecidableEq, Repr

/-- A location that takes 1-byte accesses only (rule R67). -/
inductive ByteLoc where
  /-- `KBUF[i]`. -/
  | kbuf (i : Fin 8)
  /-- `MBUF[i]`. -/
  | mbuf (i : Fin Config.msgMax)
  deriving DecidableEq, Repr

/-- The register block in offset order (rule R34): register number `k` is at offset `4k`. -/
def registerAt (k : Fin 11) : WordLoc :=
  (#v[WordLoc.id, .cmd, .status, .seed, .klen, .mlen, .blkHi, .blkLo, .keyHi, .keyLo, .cap]).get k

/-- The word number of an aligned offset in a window of `count` words at `base` (rules R67 and R68). -/
def wordIndex (base count : Nat) (off : BitVec 16) : Option (Fin count) :=
  if h : base ≤ off.toNat ∧ (off.toNat - base) % 4 = 0 ∧ (off.toNat - base) / 4 < count then
    some ⟨(off.toNat - base) / 4, h.2.2⟩
  else none

/-- The byte number of an offset in a window of `count` bytes at `base` (rules R70 and R71). -/
def byteIndex (base count : Nat) (off : BitVec 16) : Option (Fin count) :=
  if h : base ≤ off.toNat ∧ off.toNat - base < count then some ⟨off.toNat - base, h.2⟩ else none

/-- The rows of rule R66 that accept `w = 4`. -/
def locateWord (off : BitVec 16) : Option WordLoc :=
  (wordIndex 0x0000 11 off).map registerAt <|>
  (wordIndex 0x1000 56 off).map .pc1 <|>
  (wordIndex 0x1100 56 off).map .pc2 <|>
  (wordIndex 0x1200 16 off).map .shifts <|>
  (wordIndex 0x1300 48 off).map .e <|>
  (wordIndex 0x1400 32 off).map .p <|>
  (wordIndex 0x1500 64 off).map .ip <|>
  (wordIndex 0x1600 64 off).map .ipinv <|>
  (wordIndex 0x1800 512 off).map .s <|>
  (wordIndex 0x2000 32 off).map .rk

/-- The rows of rule R66 that accept `w = 1`. -/
def locateByte (off : BitVec 16) : Option ByteLoc :=
  (byteIndex 0x0040 8 off).map .kbuf <|>
  (byteIndex 0x4000 Config.msgMax off).map .mbuf

/-- What a word location reads as (rules R35 to R43, R68, R69 and R74). -/
def readWord (s : State) : WordLoc → Word
  | .id => Config.idWord
  | .cmd => 0#32
  | .status => statusWord s
  | .seed => s.seed
  | .klen => BitVec.ofNat 32 s.klen.val
  | .mlen => BitVec.ofNat 32 s.mlen.val
  | .blkHi => s.blk.extractLsb' 32 32
  | .blkLo => s.blk.extractLsb' 0 32
  | .keyHi => gated s.rkv (s.key.extractLsb' 32 32)
  | .keyLo => gated s.rkv (s.key.extractLsb' 0 32)
  | .cap => BitVec.ofNat 32 Config.msgMax
  | .pc1 k => gated s.tblv ((s.tables.pc1.get k).setWidth 32)
  | .pc2 k => gated s.tblv ((s.tables.pc2.get k).setWidth 32)
  | .shifts k => BitVec.ofNat 32 (Config.shifts.get k)
  | .e k => gated s.tblv ((s.tables.e.get k).setWidth 32)
  | .p k => gated s.tblv ((s.tables.p.get k).setWidth 32)
  | .ip k => gated s.tblv ((s.tables.ip.get k).setWidth 32)
  | .ipinv k => gated s.tblv ((s.tables.ipinv.get k).setWidth 32)
  | .s k => gated s.tblv ((s.tables.s[k.val / 64][k.val / 16 % 4][k.val % 16]).setWidth 32)
  | .rk k => gated s.rkv
      (if k.val % 2 = 0 then (s.rk[k.val / 2].extractLsb' 32 16).setWidth 32
       else s.rk[k.val / 2].extractLsb' 0 32)

/-- What a byte location reads as (rules R70 and R71). -/
def readByte (s : State) : ByteLoc → Byte
  | .kbuf i => s.kbuf.get i
  | .mbuf i => Memory.read s.mbuf i.val

/-- The response to `BusRead(off, w)` (rules R61, R67 and R72). -/
def readResponse (s : State) (off : BitVec 16) : Width → Resp
  | .w1 => match locateByte off with
    | some l => .byte (readByte s l)
    | none => .busError
  | .w2 => .busError
  | .w4 => match locateWord off with
    | some l => .word (readWord s l)
    | none => .busError

/-- A write to `SEED` (rule R38): locked while the tables exist. -/
def writeSeed (s : State) (v : Word) : State :=
  if s.tblv then raiseErr .locked s else s.setSeed v

/-- A write to `KLEN` (rule R39): clamped to 8. -/
def writeKlen (s : State) (v : Word) : State := s.setKlen ⟨min v.toNat 8, by omega⟩

/-- A write to `MLEN` (rule R40): refused above `MSG_MAX`. -/
def writeMlen (s : State) (v : Word) : State :=
  if h : v.toNat < Config.msgMax + 1 then s.setMlen ⟨v.toNat, h⟩ else raiseErr .range s

/-- A write to `BLK_HI` (rule R41). -/
def writeBlkHi (s : State) (v : Word) : State := s.setBlk (v ++ s.blk.extractLsb' 0 32)

/-- A write to `BLK_LO` (rule R41). -/
def writeBlkLo (s : State) (v : Word) : State := s.setBlk (s.blk.extractLsb' 32 32 ++ v)

/-- A write to a byte location (rules R70 and R71). -/
def writeByte (s : State) (v : Byte) : ByteLoc → State
  | .kbuf i => s.setKbuf i v
  | .mbuf i => s.setMbuf (Memory.write s.mbuf i.val v)

end Sys2Proof.Machine
end

