-- ==== Sys2Proof/Machine/Port.lean ====
section
/-! DEFINITION. The host port (spec/20_memory.md rules R60, R61, R72 and R76): one host operation at a
time, each handled whole and answered before the next begins. -/

namespace Sys2Proof.Machine

/-- A 32-bit write of `w` to `CMD` (rules R36, R94 and R95): decode, then run the command to its end. A
word that is no command raises `E_ILLCMD` and nothing else. -/
def runCommand (w : Word) (s : State) : Host.Outcome State Fault Refusal :=
  match decodeWord w with
  | .ok i => exec i s
  | .error _ => refuse .illcmd s

/-- The response joined to the outcome of an accepted write (rule R61). -/
def thenRespond (r : Resp) : Host.Outcome State Fault Refusal → Host.Outcome State Fault Refusal
  | .next s => .next (s.respond r)
  | .fault f => .fault f
  | .refused e => .refused e

/-- An accepted 4-byte write, or none where the location is read-only (rule R72 c). -/
def writeWord (s : State) (v : Word) : WordLoc → Option (Host.Outcome State Fault Refusal)
  | .cmd => some (runCommand v s)
  | .seed => some (.next (writeSeed s v))
  | .klen => some (.next (writeKlen s v))
  | .mlen => some (.next (writeMlen s v))
  | .blkHi => some (.next (writeBlkHi s v))
  | .blkLo => some (.next (writeBlkLo s v))
  | .id | .status | .keyHi | .keyLo | .cap => none
  | .pc1 _ | .pc2 _ | .shifts _ | .e _ | .p _ | .ip _ | .ipinv _ | .s _ | .rk _ => none

/-- `BusWrite(off, w, v)`, or none where it is not accepted (rules R67 and R72). -/
def busWrite (s : State) (off : BitVec 16) : BusData → Option (Host.Outcome State Fault Refusal)
  | .b8 v => (locateByte off).map fun l => .next (writeByte s v l)
  | .b16 _ => none
  | .b32 v => (locateWord off).bind (writeWord s v)

/-- One host operation with its response (rules R16, R61 and R260). A `BusError` changes no state at all.
The response to the reset input is DEDUCED: notes/assumptions/11.md. -/
def perform (s : State) : HostOp → Host.Outcome State Fault Refusal
  | .read off w => .next (s.respond (readResponse s off w))
  | .write off d => match busWrite s off d with
    | some o => thenRespond .ok o
    | none => .next (s.respond .busError)
  | .hardReset => .next ((resetEngine s).respond .ok)

/-- One step: the next host operation, or nothing while the host issues none (rules R76, R248 and R261;
DEDUCED: notes/assumptions/3.md). -/
def advance (s : State) : Host.Outcome State Fault Refusal :=
  match s.pending with
  | [] => .next s
  | op :: rest => perform (s.setPending rest) op

end Sys2Proof.Machine
end

