-- ==== Sys2Proof/Machine/Step.lean ====
section
/-! DEFINITION. The step of the machine, and how a command word is put where the next step takes it. -/

namespace Sys2Proof.Machine

/-- One step of FCE: one host operation, whole (rules R16 and R76). -/
def step (s : State) : Host.Outcome State Fault Refusal := advance s

/-- FCE fetches nothing: a command is the data of a write to `CMD` (rule R79). The next host operation
becomes the 4-byte write of the word `w` to `CMD`; the bits above `nbits` are 0. DESIGN CHOICE:
notes/assumptions/13.md and 15.md. -/
def State.withFetchWord (s : State) (nbits w : Nat) : State :=
  s.setPending (.write 0x0004#16 (.b32 (BitVec.ofNat 32 (w % 2 ^ nbits))) :: s.pending)

end Sys2Proof.Machine
end

