-- ==== Sys2Proof/Machine/Script.lean ====
section
/-! DEFINITION. The host script syntax (spec/30_encoding.md rules R99 to R101): each line, and each
pseudo-operation, as the list of host operations it stands for; a script's run, with the response of each
line; and the results that rule R100 gives the pseudo-operations that read. -/

namespace Sys2Proof.Machine.Script

/-- `W32 off, v`. -/
def w32 (off : BitVec 16) (v : Word) : HostOp := .write off (.b32 v)

/-- `W8 off, b`. -/
def w8 (off : BitVec 16) (b : Byte) : HostOp := .write off (.b8 b)

/-- `R32 off`. -/
def r32 (off : BitVec 16) : HostOp := .read off .w4

/-- `R8 off`. -/
def r8 (off : BitVec 16) : HostOp := .read off .w1

/-- `CMD m`. -/
def cmd (i : Instr) : HostOp := w32 0x0004#16 (encode i)

/-! ### The pseudo-operations -/

/-- `W8` of a list of bytes at rising offsets. Past the top of the 16-bit offset space the offset wraps
modulo `2^16`: DESIGN CHOICE, notes/assumptions/19.md. -/
def writeBytes (off : BitVec 16) : List Byte → List HostOp
  | [] => []
  | b :: bs => w8 off b :: writeBytes (off + 1#16) bs

/-- `SETSEED n` (rule R100). -/
def setSeed (n : Word) : List HostOp := [w32 0x000C#16 n]

/-- `SETKEY "k0 ... k(n-1)"` (rule R100): the first 8 bytes, then the true length `n`. For a string of
`2^32` bytes or more, whose length is no 32-bit value, the word written is `n mod 2^32`: DESIGN CHOICE,
notes/assumptions/19.md. -/
def setKey (k : List Byte) : List HostOp :=
  writeBytes 0x0040#16 (k.take 8) ++ [w32 0x0010#16 (BitVec.ofNat 32 k.length)]

/-- `SETMSG "m0 ... m(n-1)"` (rule R100), which the rule gives for at most `MSG_MAX` bytes. For more, the
same operations are issued, the length modulo `2^32`: DESIGN CHOICE, notes/assumptions/19.md. -/
def setMsg (m : List Byte) : List HostOp :=
  writeBytes 0x4000#16 m ++ [w32 0x0014#16 (BitVec.ofNat 32 m.length)]

/-- `GETMSG n` (rule R100). For `i ≥ 0xC000`, where `MBUF+i` is no 16-bit offset, the offset read is
`MBUF+i` modulo `2^16`: DESIGN CHOICE, notes/assumptions/19.md. -/
def getMsg (n : Nat) : List HostOp := (List.range n).map fun i => r8 (0x4000#16 + BitVec.ofNat 16 i)

/-- `SETBLK v` (rule R100). -/
def setBlk (v : Block) : List HostOp :=
  [w32 0x0018#16 (v.extractLsb' 32 32), w32 0x001C#16 (v.extractLsb' 0 32)]

/-- `GETBLK` (rule R100). -/
def getBlk : List HostOp := [r32 0x0018#16, r32 0x001C#16]

/-- `ENCRYPT "m", "k"` (rules R100 and R211). -/
def encrypt (m k : List Byte) : List HostOp :=
  setKey k ++ [cmd .ksched] ++ setMsg m ++ [cmd .msgenc] ++ getMsg m.length

/-- `DECRYPT "m", "k"` (rules R100 and R211). -/
def decrypt (m k : List Byte) : List HostOp :=
  setKey k ++ [cmd .ksched] ++ setMsg m ++ [cmd .msgdec] ++ getMsg m.length

/-! ### The run of a script -/

/-- `n` steps. -/
def steps (n : Nat) (s : State) : Host.Outcome State Fault Refusal := Sys2Proof.core.run n s

/-- The run of a script from the engine of `s`, with no response given yet, one step for each line (rule
R101). -/
def run (ops : List HostOp) (s : State) : Host.Outcome State Fault Refusal :=
  steps ops.length { s with pending := ops, responses := [] }

/-- The run of a script from the reset state, where rule R101 starts a script that says nothing else. -/
def runFromReset (ops : List HostOp) : Host.Outcome State Fault Refusal := run ops State.reset

/-- The responses of a run, one for each line (rule R101); none for a run that does not end in a state. -/
def responsesOf : Host.Outcome State Fault Refusal → Option (List Resp)
  | .next t => some t.responses
  | .fault _ | .refused _ => none

/-! ### Results -/

/-- The string of the bytes read. No result where one of the responses is not that of an accepted 1-byte read:
DESIGN CHOICE, notes/assumptions/19.md. -/
def bytesRead : List Resp → Option (List Byte)
  | [] => some []
  | .byte b :: rs => (bytesRead rs).map (b :: ·)
  | .word _ :: _ | .ok :: _ | .busError :: _ => none

/-- `hi·2^32 + lo` of the two words read. No result for other responses: DESIGN CHOICE,
notes/assumptions/19.md. -/
def blockRead : List Resp → Option Block
  | [.word hi, .word lo] => some (hi ++ lo)
  | _ => none

/-- The result of `GETMSG n` (rule R100): the string of the `n` bytes read. -/
def getMsgResult (n : Nat) (s : State) : Option (List Byte) :=
  (responsesOf (run (getMsg n) s)).bind bytesRead

/-- The result of `GETBLK` (rule R100). -/
def getBlkResult (s : State) : Option Block := (responsesOf (run getBlk s)).bind blockRead

/-- The text that a script ending in `GETMSG n` returns: the result of those last `n` lines. -/
def textResult (ops : List HostOp) (n : Nat) (s : State) : Option (List Byte) :=
  (responsesOf (run ops s)).bind fun rs => bytesRead (rs.drop (ops.length - n))

/-- `encrypt(message, key)` (rules R100 and R211): the text that `ENCRYPT "m", "k"` returns. -/
def encryptText (m k : List Byte) (s : State) : Option (List Byte) := textResult (encrypt m k) m.length s

/-- `decrypt(message, key)` (rules R100 and R211): the text that `DECRYPT "m", "k"` returns. -/
def decryptText (m k : List Byte) (s : State) : Option (List Byte) := textResult (decrypt m k) m.length s

end Sys2Proof.Machine.Script
end

