-- ==== Sys2Proof/Safety.lean ====
section
/-! DEFINITION. What holds in every state FCE can reach (spec/10_state.md rule R47), in the terms the
statements use, and the legality of a table set (spec/40_table_generator.md rule R121). -/

namespace Sys2Proof.Machine

/-- The entries of a table as numbers. -/
def entries {w n : Nat} (t : Vector (BitVec w) n) : List Nat := t.toList.map BitVec.toNat

/-- The invariants (a) to (f) of rule R121. -/
structure Tables.Legal (t : Tables) : Prop where
  /-- (a) -/
  pc1 : (entries t.pc1).Perm (List.range' 1 56)
  /-- (b) -/
  pc2 : (entries t.pc2).Perm (List.range' 1 56)
  /-- (c), the first copy -/
  eFirst : ((entries t.e).take 32).Perm (List.range' 1 32)
  /-- (c), the second copy: 16 distinct values of 1..32 -/
  eSecondDistinct : ((entries t.e).drop 32).Nodup
  /-- (c), the second copy: 16 distinct values of 1..32 -/
  eSecondRange : ∀ x ∈ (entries t.e).drop 32, 1 ≤ x ∧ x ≤ 32
  /-- (d) -/
  s : ∀ b : Fin 8, ∀ r : Fin 4, (entries ((t.s.get b).get r)).Perm (List.range 16)
  /-- (e) -/
  p : (entries t.p).Perm (List.range' 1 32)
  /-- (f) -/
  ip : (entries t.ip).Perm (List.range' 1 64)
  /-- (f) -/
  ipinv : (entries t.ipinv).Perm (List.range' 1 64)

/-- Rule R47 as an invariant, with the canonical form of the message buffer and the reset values that
stay while a valid flag is 0 (rules R24, R27 and R45). Clause (a) of the rule, `KLEN ≤ 8` and
`MLEN ≤ MSG_MAX`, and clause (e), the codes of `ERR`, hold by the types of the fields. -/
structure State.Inv (s : State) : Prop where
  /-- The buffer has its canonical form, with no cell at or above `MSG_MAX`. -/
  buffer : Memory.wf s.mbuf = true
  /-- (b) -/
  keysNeedTables : s.rkv = true → s.tblv = true
  /-- (c), the tables are those of the seed -/
  tablesOfSeed : s.tblv = true → s.tables = generate Config.prng s.seed
  /-- (c), the tables are legal -/
  tablesLegal : s.tblv = true → s.tables.Legal
  /-- (d) -/
  keysOfSchedule : s.rkv = true → s.rk = schedule s.key s.tables.pc1 s.tables.pc2 Config.shifts
  /-- The tables hold their reset value until `GEN`. -/
  tablesReset : s.tblv = false → s.tables = Tables.zero
  /-- `KEY` and `RK` hold their reset values until `KSCHED`. -/
  keysReset : s.rkv = false → s.key = 0#64 ∧ s.rk = Vector.replicate 16 0#48

/-- A step goes on: it answers a next state. -/
def State.GoesOn (s : State) : Prop := ∃ t, step s = .next t

end Sys2Proof.Machine
end

