-- ==== Sys2Proof/Certificates/Slice0/Obligations.lean ====
section
/-! DEFINITION. The statements for the provers. Each docstring names the rule of spec/ it formalises. -/

namespace Sys2Proof.Statements

open Sys2Proof.Machine
open Sys2Proof.Config (Prng)

/-! ### Words the statements use -/

/-- When `op` is the next host operation of `s`, the step answers the response `r`, and the engine is then
as in `u`. Everything of `u` but the two ends of the port is compared. The step takes the operation off the
list, which is not read otherwise, and adds the response to those given: that the two lists stand in the
state is the model's choice (notes/assumptions/1.md and 2.md). -/
def StepsTo (s : State) (op : HostOp) (r : Resp) (u : State) : Prop :=
  ∀ rest, s.pending = op :: rest →
    step s = .next { u with pending := rest, responses := s.responses ++ [r] }

/-- The state in which `raise Err(c)` leaves the machine (rule R236): the latch keeps the first error. -/
def latched (c : ErrCode) (s : State) : State := { s with err := if s.err = .ok then c else s.err }

/-- The offsets at which rules R66 and R67 accept a 4-byte access. -/
def AcceptsWord (off : Nat) : Prop :=
  off % 4 = 0 ∧
    (off ≤ 0x002B ∨ 0x1000 ≤ off ∧ off ≤ 0x10DF ∨ 0x1100 ≤ off ∧ off ≤ 0x11DF ∨
      0x1200 ≤ off ∧ off ≤ 0x123F ∨ 0x1300 ≤ off ∧ off ≤ 0x13BF ∨ 0x1400 ≤ off ∧ off ≤ 0x147F ∨
      0x1500 ≤ off ∧ off ≤ 0x15FF ∨ 0x1600 ≤ off ∧ off ≤ 0x16FF ∨ 0x1800 ≤ off ∧ off ≤ 0x1FFF ∨
      0x2000 ≤ off ∧ off ≤ 0x207F)

/-- The offsets at which rules R66 and R67 accept a 1-byte access. -/
def AcceptsByte (off : Nat) : Prop :=
  0x0040 ≤ off ∧ off ≤ 0x0047 ∨ 0x4000 ≤ off ∧ off < 0x4000 + Config.msgMax

/-- The registers a write reaches: `CMD`, `SEED`, `KLEN`, `MLEN`, `BLK_HI`, `BLK_LO` (rules R34, R72 c). -/
def WritableWord (off : Nat) : Prop :=
  off = 0x0004 ∨ off = 0x000C ∨ off = 0x0010 ∨ off = 0x0014 ∨ off = 0x0018 ∨ off = 0x001C

/-- The operations FCE accepts (rules R66, R67 and R72). The reset input is always accepted. -/
def Accepted : HostOp → Prop
  | .read off .w1 => AcceptsByte off.toNat
  | .read _ .w2 => False
  | .read off .w4 => AcceptsWord off.toNat
  | .write off (.b8 _) => AcceptsByte off.toNat
  | .write _ (.b16 _) => False
  | .write off (.b32 _) => WritableWord off.toNat
  | .hardReset => True

/-- The next operation resets the engine: the reset input or the command `SRST` (rule R260). -/
def ResetsNext (s : State) : Prop :=
  s.pending.head? = some .hardReset ∨ s.pending.head? = some (.write 0x0004#16 (.b32 0x000000FF#32))

/-- The next operation writes the word `w` to `CMD`. -/
def CommandsNext (s : State) (w : Word) : Prop := s.pending.head? = some (.write 0x0004#16 (.b32 w))

/-- Block `j` of the message of `n` bytes in `m`, padded on the right with zero bytes (rules R202, R204). -/
def messageBlock (m : Memory) (n j : Nat) : Block :=
  packBlock fun k => if 8 * j + k < n then Memory.read m (8 * j + k) else 0#8

/-- `m'` is the result of transforming the `n` message bytes of `m` block by block with the round keys
`ks` and cutting the last output block (rules R205 to R207); every byte at index `n` or above is the old
one (rule R31). -/
def TransformedMessage (t : Tables) (ks : List RoundKey) (n : Nat) (m m' : Memory) : Prop :=
  (∀ i, i < n → Memory.read m' i = blockByte (feistel t (messageBlock m n (i / 8)) ks) (i % 8)) ∧
    ∀ i, n ≤ i → Memory.read m' i = Memory.read m i

/-- Every entry of a table is a position of a string of `len` bits. -/
def EntriesWithin {w n : Nat} (t : Vector (BitVec w) n) (len : Nat) : Prop :=
  ∀ i : Fin n, 1 ≤ (t.get i).toNat ∧ (t.get i).toNat ≤ len

/-- A generator that also counts its draws. -/
def counted (p : Prng) : Prng where
  St := p.St × Nat
  seedInit seed := (p.seedInit seed, 0)
  below g n := (((p.below g.1 n).1, g.2 + 1), (p.below g.1 n).2)
  below_lt g n h := p.below_lt g.1 n h

/-- A draw of `LCG32`, whose generator state is a word (rule R112). -/
def lcgDraw (s : Word) (n : Nat) : Word × Nat := Config.lcg32.below s n

/-- The state of `LCG32` after all the draws of `generate` (rule R123). -/
def lcgFinalState (seed : Word) : Word := (generateRun Config.lcg32 seed).1

/-- `b` is `a` with the entries at `i` and `j` exchanged. -/
def Exchanged {α : Type} {n : Nat} (a b : Vector α n) (i j : Nat) : Prop :=
  ∀ k, k < n → b[k]? = if k = i then a[j]? else if k = j then a[i]? else a[k]?

/-- From the generator state `g`, the shuffle of the ascending list from `first` on leaves the generator state
`g'` and the table `t`. -/
def Draws (p : Prng) {w n : Nat} (first : Nat) (g g' : p.St) (t : Vector (BitVec w) n) : Prop :=
  ∃ up : Vector (BitVec w) n, entries up = List.range' first n ∧ shuffle p g up = (g', t)

/-- `out` is the text `m` transformed with the round keys `ks`: block by block, the last one padded on the right
with zero bytes, the output cut to the length of `m` (rules R202 to R207). -/
def TransformedText (t : Tables) (ks : List RoundKey) (m out : List Byte) : Prop :=
  out.length = m.length ∧ ∀ i, i < m.length →
    out[i]? = some (blockByte (feistel t (packBlock fun k => m.getD (8 * (i / 8) + k) 0#8) ks) (i % 8))

/-- Two states whose engines differ in the error latch at most. -/
def SameButLatch (s t : State) : Prop := { s with err := .ok } = { t with err := .ok }

end Sys2Proof.Statements

open Sys2Proof Sys2Proof.Machine Sys2Proof.Statements
open Sys2Proof.Config (Prng)

/-! ### Encoding -/

/-- Rule R93: a word selects a command exactly when it is that command's one word. -/
def Obligations.DecodeSelectsExactlyTheNineWords : Prop :=
  ∀ (w : Word) (i : Instr), decodeWord w = .ok i ↔
    (w, i) ∈ [(0x00000000#32, Instr.nop), (0x00000001#32, .gen), (0x00000002#32, .ksched),
      (0x00000003#32, .clrerr), (0x00000010#32, .blkenc), (0x00000110#32, .blkdec),
      (0x00000011#32, .msgenc), (0x00000111#32, .msgdec), (0x000000FF#32, .srst)]

/-- Decode and encode agree on every command, on the word and through the opcode table's bit numbering. -/
def Obligations.EncodedCommandDecodesBack : Prop :=
  ∀ i : Instr, i.wellFormed = true ∧ decodeWord (encode i) = .ok i ∧
    decodeTableWord 32 (encode i).toNat = some i

/-- Words written out from the fields of rules R91 and R92: bits [31:9], bit [8], bits [7:0]. Which opcode and
`dir` make which command is rule R93, and that a reserved bit, `dir` beside a format Z opcode and an unassigned
opcode make a word illegal is rules R94 and R95. The three names of the rejections are the model's: the spec
has one code for all of them, `E_ILLCMD`. -/
def Obligations.WordsWrittenOutDecode : Prop :=
  decodeWord (0b00000000000000000000000#23 ++ 0b0#1 ++ 0b00000001#8) = .ok .gen ∧
    decodeWord (0b00000000000000000000000#23 ++ 0b1#1 ++ 0b00010000#8) = .ok .blkdec ∧
    decodeWord (0b00000000000000000000000#23 ++ 0b0#1 ++ 0b00010001#8) = .ok .msgenc ∧
    decodeWord (0b00000000000000000000000#23 ++ 0b0#1 ++ 0b11111111#8) = .ok .srst ∧
    decodeWord (0b00000000000000000000001#23 ++ 0b0#1 ++ 0b00010000#8) = .error .reservedBits ∧
    decodeWord (0b00000000000000000000000#23 ++ 0b1#1 ++ 0b00000001#8) = .error .directionOnFormatZ ∧
    decodeWord (0b00000000000000000000000#23 ++ 0b0#1 ++ 0b00000100#8) = .error .unassignedOpcode

/-! ### The step and the port -/

/-- Rule R36: a 32-bit write to `CMD` decodes the word and runs the command to its end before the write
completes; a word that is no command raises `E_ILLCMD`; a read of `CMD` returns 0 and has no effect. Around
`exec` the step takes the operation off the host's list and adds its response. -/
def Obligations.CommandWriteRunsTheDecodedCommand : Prop :=
  (∀ (s : State) (rest : List HostOp) (w : Word) (i : Instr),
    s.pending = .write 0x0004#16 (.b32 w) :: rest → decodeWord w = .ok i →
    step s = match exec i { s with pending := rest } with
      | .next t => .next { t with responses := t.responses ++ [.ok] }
      | .fault f => .fault f
      | .refused r => .refused r) ∧
  (∀ (s : State) (w : Word) (e : DecodeError), decodeWord w = .error e →
    StepsTo s (.write 0x0004#16 (.b32 w)) .ok (latched .illcmd s)) ∧
  ∀ s : State, StepsTo s (.read 0x0004#16 .w4) (.word 0#32) s

/-- Rule R95: every word but the nine raises `E_ILLCMD` and nothing else, and the write answers `Ok`. -/
def Obligations.IllegalWordOnlyLatchesIllcmd : Prop :=
  ∀ (s : State) (w : Word),
    w ∉ [0x00000000#32, 0x00000001#32, 0x00000002#32, 0x00000003#32, 0x00000010#32, 0x00000110#32,
      0x00000011#32, 0x00000111#32, 0x000000FF#32] →
    StepsTo s (.write 0x0004#16 (.b32 w)) .ok (latched .illcmd s)

/-- Rules R248 and R261, as the model reads them (notes/assumptions/3.md): while the host issues nothing,
FCE holds its state. -/
def Obligations.IdleWhileNothingIsPending : Prop :=
  ∀ s : State, s.pending = [] → step s = .next s

/-- Rules R66, R67 and R72: which bus operations get `BusError`, and that a `BusError` changes no state at all;
every other operation gets another response, one only. For the reset input, of which those rules do not speak,
the second clause rests on the model: that it is answered, with one response that is no `BusError`, is DEDUCED
(rules R16, R46 and R101; notes/assumptions/11.md), and that it leaves the operations still pending and the
responses already given is its choice (notes/assumptions/5.md). -/
def Obligations.AcceptanceFollowsTheAddressMap : Prop :=
  ∀ (s : State) (op : HostOp),
    (¬ Accepted op → StepsTo s op .busError s) ∧
    (Accepted op → ∃ r u, r ≠ .busError ∧ StepsTo s op r u)

/-- Rule R73: no read has a side effect, accepted or not, and what it answers depends on the engine alone: the
same read answers the same again. -/
def Obligations.ReadsChangeNothing : Prop :=
  ∀ (s : State) (off : BitVec 16) (w : Width), ∃ r, ∀ (l : List HostOp) (rs : List Resp),
    StepsTo { s with pending := l, responses := rs } (.read off w) r s

/-- Rules R35, R37, R42 and R43: the read-only registers, with the number that `STATUS` shows for each error code
(rule R234). -/
def Obligations.ReadOnlyRegistersReadAndRefuseWrites : Prop :=
  ∀ s : State,
    StepsTo s (.read 0x0000#16 .w4) (.word 0x46434531#32) s ∧
    StepsTo s (.read 0x0028#16 .w4) (.word (BitVec.ofNat 32 Config.msgMax)) s ∧
    StepsTo s (.read 0x0020#16 .w4) (.word (if s.rkv then s.key.extractLsb' 32 32 else 0#32)) s ∧
    StepsTo s (.read 0x0024#16 .w4) (.word (if s.rkv then s.key.extractLsb' 0 32 else 0#32)) s ∧
    (∃ v : Word, StepsTo s (.read 0x0008#16 .w4) (.word v) s ∧
      v.getLsbD 0 = s.tblv ∧ v.getLsbD 1 = s.rkv ∧ v.extractLsb' 2 6 = 0#6 ∧
      (s.err, v.extractLsb' 8 4) ∈ [(ErrCode.ok, 0#4), (.illcmd, 1#4), (.notbl, 2#4), (.nokey, 3#4),
        (.key, 4#4), (.msg, 5#4), (.locked, 6#4), (.range, 7#4)] ∧
      v.extractLsb' 12 20 = 0#20) ∧
    ∀ v : Word, ∀ off ∈ [0x0000#16, 0x0008#16, 0x0020#16, 0x0024#16, 0x0028#16],
      StepsTo s (.write off (.b32 v)) .busError s

/-- Rules R68 and R74: the table windows, gated by `TBLV`, and the `SHIFTS` window, never gated; a write to
any of them is a `BusError`. -/
def Obligations.TableWindowsReadTheTables : Prop :=
  ∀ s : State,
    let shown (x : Word) : Resp := .word (if s.tblv then x else 0#32)
    let at4 (base k : Nat) : BitVec 16 := BitVec.ofNat 16 (base + 4 * k)
    (∀ k : Fin 56, StepsTo s (.read (at4 0x1000 k) .w4) (shown ((s.tables.pc1.get k).setWidth 32)) s) ∧
    (∀ k : Fin 56, StepsTo s (.read (at4 0x1100 k) .w4) (shown ((s.tables.pc2.get k).setWidth 32)) s) ∧
    (∀ k : Fin 16, StepsTo s (.read (at4 0x1200 k) .w4) (.word (BitVec.ofNat 32 (Config.shifts.get k))) s) ∧
    (∀ k : Fin 48, StepsTo s (.read (at4 0x1300 k) .w4) (shown ((s.tables.e.get k).setWidth 32)) s) ∧
    (∀ k : Fin 32, StepsTo s (.read (at4 0x1400 k) .w4) (shown ((s.tables.p.get k).setWidth 32)) s) ∧
    (∀ k : Fin 64, StepsTo s (.read (at4 0x1500 k) .w4) (shown ((s.tables.ip.get k).setWidth 32)) s) ∧
    (∀ k : Fin 64, StepsTo s (.read (at4 0x1600 k) .w4) (shown ((s.tables.ipinv.get k).setWidth 32)) s) ∧
    (∀ (b : Fin 8) (r : Fin 4) (c : Fin 16),
      StepsTo s (.read (at4 0x1800 (64 * b + 16 * r + c)) .w4)
        (shown ((((s.tables.s.get b).get r).get c).setWidth 32)) s) ∧
    ∀ (off : BitVec 16) (v : Word), 0x1000 ≤ off.toNat → off.toNat ≤ 0x1FFF →
      StepsTo s (.write off (.b32 v)) .busError s

/-- Rule R69: the round-key window. -/
def Obligations.RoundKeyWindowReadsTheRoundKeys : Prop :=
  ∀ s : State,
    (∀ i : Fin 16,
      StepsTo s (.read (BitVec.ofNat 16 (0x2000 + 8 * i)) .w4)
        (.word (if s.rkv then ((s.rk.get i).extractLsb' 32 16).setWidth 32 else 0#32)) s ∧
      StepsTo s (.read (BitVec.ofNat 16 (0x2000 + 8 * i + 4)) .w4)
        (.word (if s.rkv then (s.rk.get i).extractLsb' 0 32 else 0#32)) s) ∧
    ∀ (off : BitVec 16) (v : Word), 0x2000 ≤ off.toNat → off.toNat ≤ 0x207F →
      StepsTo s (.write off (.b32 v)) .busError s

/-- Rules R70 and R71: the two buffers are read and written a byte at a time, with no other effect. -/
def Obligations.BufferWindowsReadAndWriteBytes : Prop :=
  ∀ s : State, Memory.wf s.mbuf = true →
    (∀ (i : Fin 8) (b : Byte),
      StepsTo s (.read (BitVec.ofNat 16 (0x0040 + i)) .w1) (.byte (s.kbuf.get i)) s ∧
      StepsTo s (.write (BitVec.ofNat 16 (0x0040 + i)) (.b8 b)) .ok { s with kbuf := s.kbuf.set i b }) ∧
    ∀ (i : Fin Config.msgMax) (b : Byte),
      StepsTo s (.read (BitVec.ofNat 16 (0x4000 + i)) .w1) (.byte (Memory.read s.mbuf i)) s ∧
      ∃ m, StepsTo s (.write (BitVec.ofNat 16 (0x4000 + i)) (.b8 b)) .ok { s with mbuf := m } ∧
        Memory.wf m = true ∧ Memory.read m i = b ∧
        ∀ a, a ≠ i.val → Memory.read m a = Memory.read s.mbuf a

/-- Rule R38: the `SEED` register. -/
def Obligations.SeedWriteIsLockedByTheTables : Prop :=
  ∀ (s : State) (v : Word),
    StepsTo s (.read 0x000C#16 .w4) (.word s.seed) s ∧
    (s.tblv = false → StepsTo s (.write 0x000C#16 (.b32 v)) .ok { s with seed := v }) ∧
    (s.tblv = true → StepsTo s (.write 0x000C#16 (.b32 v)) .ok (latched .locked s))

/-- Rule R39: the `KLEN` register. -/
def Obligations.KlenWriteIsClampedToEight : Prop :=
  ∀ (s : State) (v : Word),
    StepsTo s (.read 0x0010#16 .w4) (.word (BitVec.ofNat 32 s.klen)) s ∧
    ∃ n : Fin 9, n.val = min v.toNat 8 ∧ StepsTo s (.write 0x0010#16 (.b32 v)) .ok { s with klen := n }

/-- Rule R40: the `MLEN` register. -/
def Obligations.MlenWriteIsRangeChecked : Prop :=
  ∀ (s : State) (v : Word),
    StepsTo s (.read 0x0014#16 .w4) (.word (BitVec.ofNat 32 s.mlen)) s ∧
    (v.toNat ≤ Config.msgMax → ∃ n : Fin (Config.msgMax + 1), n.val = v.toNat ∧
      StepsTo s (.write 0x0014#16 (.b32 v)) .ok { s with mlen := n }) ∧
    (Config.msgMax < v.toNat → StepsTo s (.write 0x0014#16 (.b32 v)) .ok (latched .range s))

/-- Rule R41: `BLK_HI` and `BLK_LO` are the halves of `BLK`. -/
def Obligations.BlockRegisterHalvesAreIndependent : Prop :=
  ∀ (s : State) (v : Word),
    StepsTo s (.read 0x0018#16 .w4) (.word (s.blk.extractLsb' 32 32)) s ∧
    StepsTo s (.read 0x001C#16 .w4) (.word (s.blk.extractLsb' 0 32)) s ∧
    (∃ b : Block, b.extractLsb' 32 32 = v ∧ b.extractLsb' 0 32 = s.blk.extractLsb' 0 32 ∧
      StepsTo s (.write 0x0018#16 (.b32 v)) .ok { s with blk := b }) ∧
    ∃ b : Block, b.extractLsb' 0 32 = v ∧ b.extractLsb' 32 32 = s.blk.extractLsb' 32 32 ∧
      StepsTo s (.write 0x001C#16 (.b32 v)) .ok { s with blk := b }

/-! ### Reset and control commands -/

/-- Rule R45: the reset value of every element of rule R20. -/
def Obligations.ResetStateIsAllZero : Prop :=
  State.reset.seed = 0#32 ∧ State.reset.tblv = false ∧
    (∀ x, x ∈ entries State.reset.tables.pc1 ++ entries State.reset.tables.pc2 ++
      entries State.reset.tables.e ++ entries State.reset.tables.p ++ entries State.reset.tables.ip ++
      entries State.reset.tables.ipinv → x = 0) ∧
    (∀ (b : Fin 8) (r : Fin 4) (c : Fin 16), ((State.reset.tables.s.get b).get r).get c = 0#4) ∧
    (∀ i : Fin 8, State.reset.kbuf.get i = 0#8) ∧ State.reset.klen.val = 0 ∧ State.reset.key = 0#64 ∧
    (∀ i : Fin 16, State.reset.rk.get i = 0#48) ∧ State.reset.rkv = false ∧ State.reset.blk = 0#64 ∧
    (∀ i, Memory.read State.reset.mbuf i = 0#8) ∧ State.reset.mlen.val = 0 ∧
    State.reset.err.code = 0#4

/-- Rules R260 and R45: the reset input and the command `SRST` have exactly the same effect, the reset state. The
response of the reset input is the model's, DEDUCED from rules R16, R46 and R101 (notes/assumptions/11.md), and
so is that the operations still pending and the responses already given stay (notes/assumptions/5.md). -/
def Obligations.ResetInputHasTheEffectOfSrst : Prop :=
  ∀ s : State, StepsTo s .hardReset .ok State.reset ∧
    StepsTo s (.write 0x0004#16 (.b32 0x000000FF#32)) .ok State.reset

/-- Rule R220: `NOP` is the word 0 and changes nothing, the latch included. -/
def Obligations.NopChangesNothing : Prop :=
  decodeWord 0x00000000#32 = .ok .nop ∧ ∀ s : State, exec .nop s = .next s

/-- Rule R221: `CLRERR` clears the latch, set or not, and nothing else. -/
def Obligations.ClrerrClearsOnlyTheLatch : Prop :=
  decodeWord 0x00000003#32 = .ok .clrerr ∧ ∀ s : State, exec .clrerr s = .next { s with err := .ok }

/-- Rule R222: `SRST` restores the reset state and is never refused. The two ends of the port are the
host's and stay (notes/assumptions/5.md). -/
def Obligations.SrstRestoresTheResetState : Prop :=
  decodeWord 0x000000FF#32 = .ok .srst ∧
    ∀ s : State, exec .srst s = .next { State.reset with pending := s.pending, responses := s.responses }

/-! ### `GEN` and the table generator -/

/-- Rule R122: `GEN` generates every table from `SEED` and sets `TBLV`, or is refused with `E_LOCKED`;
nothing else changes. -/
def Obligations.GenGeneratesTheTablesOnce : Prop :=
  decodeWord 0x00000001#32 = .ok .gen ∧
    ∀ s : State,
      (s.tblv = false → exec .gen s = .next { s with tables := generate Config.prng s.seed, tblv := true }) ∧
      (s.tblv = true → exec .gen s = .next (latched .locked s))

/-- Rule R112: the reference generator `LCG32`, which FCE1 takes as its `PRNG`, with the rule's two example
draws. -/
def Obligations.LcgDrawsFollowTheFormula : Prop :=
  Config.prng = Config.lcg32 ∧ (∀ seed : Word, Config.lcg32.seedInit seed = seed) ∧
    (∀ (s : Word) (n : Nat), 1 ≤ n → ∃ s' : Word, s'.toNat = (1664525 * s.toNat + 1013904223) % 2 ^ 32 ∧
      lcgDraw s n = (s', s'.toNat / 65536 % n)) ∧
    lcgDraw 42#32 56 = (0x4099B181#32, 17) ∧ lcgDraw 0x4099B181#32 55 = (0x168F5CEC#32, 0)

/-- Rule R111: for every generator, `shuffle` gives a permutation of its input and makes exactly `n - 1`
draws. -/
def Obligations.ShufflePermutesWithOneDrawLess : Prop :=
  ∀ (p : Prng) (g : p.St) (n : Nat) (a : Vector Nat n), 1 ≤ n →
    (shuffle p g a).2.toList.Perm a.toList ∧
    ∀ c : Nat, shuffle (counted p) (g, c) a =
      (((shuffle p g a).1, c + (n - 1)), (shuffle p g a).2)

/-- Rule R111: the loop of `shuffle`, for every generator. `g i` and `b i` are the generator state and the list
before the turn of index `i`, which draws below `i + 1` and exchanges the entries at `i` and at the drawn
number; the indices run from `n - 1` down to 1. -/
def Obligations.ShuffleFollowsTheLoop : Prop :=
  ∀ (p : Prng) (α : Type) (n : Nat) (g : Nat → p.St) (b : Nat → Vector α n), 1 ≤ n →
    (∀ i, 1 ≤ i → i < n → g (i - 1) = (p.below (g i) (i + 1)).1 ∧
      Exchanged (b i) (b (i - 1)) i (p.below (g i) (i + 1)).2) →
    shuffle p (g (n - 1)) (b (n - 1)) = (g 0, b 0)

/-- Rules R113 to R119: which tables `generate` draws, in which order, from one running generator state, for every
generator and seed. `E` is the first 48 entries of two shuffles of the fresh range; the rows of `S` are drawn box
by box, row by row in a box, row `r` of box `b` from the generator state `h (4b + r)`. -/
def Obligations.GenerateDrawsTheTablesInOrder : Prop :=
  ∀ (p : Prng) (seed : Word) (g1 g2 g3 g5 g6 g7 : p.St) (h : Nat → p.St) (pc1 pc2 : Vector (BitVec 6) 56)
    (first second perm : Vector (BitVec 6) 32) (s : Vector (Vector (Vector (BitVec 4) 16) 4) 8)
    (ip ipinv : Vector (BitVec 7) 64),
    Draws p 1 (p.seedInit seed) g1 pc1 → Draws p 1 g1 g2 pc2 →
    Draws p 1 g2 g3 first → Draws p 1 g3 (h 0) second →
    (∀ (b : Fin 8) (r : Fin 4), Draws p 0 (h (4 * b + r)) (h (4 * b + r + 1)) ((s.get b).get r)) →
    Draws p 1 (h 32) g5 perm → Draws p 1 g5 g6 ip → Draws p 1 g6 g7 ipinv →
    let t := generate p seed
    t.pc1 = pc1 ∧ t.pc2 = pc2 ∧ entries t.e = (entries first ++ entries second).take 48 ∧ t.s = s ∧
      t.p = perm ∧ t.ip = ip ∧ t.ipinv = ipinv ∧ (generateRun p seed).1 = g7

/-- Rule R121: the invariants of the generated tables, for every seed and every generator, with what follows
for `E`: every index occurs once or twice, and exactly 16 of them twice. -/
def Obligations.GeneratedTablesAreLegal : Prop :=
  ∀ (p : Prng) (seed : Word),
    (generate p seed).Legal ∧
    (∀ x, 1 ≤ x → x ≤ 32 →
      (entries (generate p seed).e).count x = 1 ∨ (entries (generate p seed).e).count x = 2) ∧
    ((List.range' 1 32).filter fun x => (entries (generate p seed).e).count x = 2).length = 16

/-- Rule R123: `generate` makes 809 draws for every seed and every generator, and the final state under
`LCG32` for seed 42. -/
def Obligations.GenerateMakesEightHundredNineDraws : Prop :=
  (∀ (p : Prng) (seed : Word),
    generateRun (counted p) seed = (((generateRun p seed).1, 809), generate p seed)) ∧
  lcgFinalState 42#32 = 0x231D9569#32

/-! ### `KSCHED` and the key schedule -/

/-- Rule R150: `KSCHED` derives the key, builds the round keys and sets `RKV`, or is refused: without
tables first, then for an empty key; nothing else changes. -/
def Obligations.KschedBuildsTheRoundKeys : Prop :=
  decodeWord 0x00000002#32 = .ok .ksched ∧
    ∀ s : State,
      (s.tblv = false → exec .ksched s = .next (latched .notbl s)) ∧
      (s.tblv = true → s.klen.val = 0 → exec .ksched s = .next (latched .key s)) ∧
      (s.tblv = true → s.klen.val ≠ 0 → exec .ksched s = .next { s with
        key := deriveKey s.kbuf s.klen,
        rk := schedule (deriveKey s.kbuf s.klen) s.tables.pc1 s.tables.pc2 Config.shifts,
        rkv := true })

/-- Rule R141: byte `i` of the derived key is key byte `i mod n`. -/
def Obligations.DerivedKeyRepeatsTheKeyBytes : Prop :=
  ∀ (kb : Vector Byte 8) (n : Fin 9), n.val ≠ 0 → ∀ (i : Nat) (h : i % n.val < 8), i < 8 →
    blockByte (deriveKey kb n) i = kb[i % n.val]

/-- Rule R151 b: a short key and its cyclic extension to 8 bytes derive the same key. -/
def Obligations.ShortKeyEqualsItsCyclicExtension : Prop :=
  ∀ (kb ext : Vector Byte 8) (n : Fin 9), n.val ≠ 0 →
    (∀ (i : Nat) (h : i < 8) (h' : i % n.val < 8), ext[i] = kb[i % n.val]) →
    deriveKey ext 8 = deriveKey kb n

/-- Rules R147 and R148: the whole schedule, for any halves that follow the rounds. -/
def Obligations.ScheduleFollowsTheRounds : Prop :=
  ∀ (k : Block) (pc1 pc2 : Vector (BitVec 6) 56) (shifts : Vector Nat 16) (c d : Nat → KeyHalf),
    (∀ i, 1 ≤ i → i ≤ 28 → ∀ h : i - 1 < 56, bit (c 0) i = bit k (pc1[i - 1]).toNat) →
    (∀ i, 1 ≤ i → i ≤ 28 → ∀ h : i + 27 < 56, bit (d 0) i = bit k (pc1[i + 27]).toNat) →
    (∀ (r : Nat) (h : r < 16), c (r + 1) = rotl (c r) shifts[r] ∧ d (r + 1) = rotr (d r) shifts[r]) →
    ∀ (r : Fin 16) (i : Nat) (h : i - 1 < 56), 1 ≤ i → i ≤ 48 →
      bit ((schedule k pc1 pc2 shifts).get r) i =
        bit (c (r.val + 1) ++ d (r.val + 1)) (pc2[i - 1]).toNat

/-- Rules R145 and R146: the rotations accumulate, the left half to the left and the right half to the
right. -/
def Obligations.KeyHalvesAccumulateTheShifts : Prop :=
  ∀ (shifts : Vector Nat 16) (c d : KeyHalf) (r : Nat), r ≤ 16 →
    halvesAfter shifts (c, d) r =
      (rotl c (shifts.toList.take r).sum, rotr d (shifts.toList.take r).sum)

/-- Rule R13 at the width FCE rotates, 28 bits: which bit each rotation moves where. -/
def Obligations.RotationsMoveBitsAround : Prop :=
  ∀ (s : KeyHalf) (k : Nat),
    (∀ i, 1 ≤ i → i ≤ 28 → bit (rotl s k) i = bit s ((i - 1 + k) % 28 + 1) ∧
      bit (rotr s k) ((i - 1 + k) % 28 + 1) = bit s i) ∧
    rotr (rotl s k) k = s

/-- Rule R151 c: with the default `SHIFTS` the last round key is made from the halves of rule R144. -/
def Obligations.DefaultShiftsReturnTheHalves : Prop :=
  ∀ (k : Block) (pc1 pc2 : Vector (BitVec 6) 56),
    (schedule k pc1 pc2 Config.shifts).get 15 =
      sel ((initialHalves k pc1).1 ++ (initialHalves k pc1).2) (pc2Used pc2)

/-- Rule R151 d: every bit of every round key is a copy of one of the key bits 1 to 56. -/
def Obligations.RoundKeyBitsAreKeyBits : Prop :=
  ∀ (pc1 pc2 : Vector (BitVec 6) 56) (shifts : Vector Nat 16),
    EntriesWithin pc1 56 → EntriesWithin pc2 56 →
    ∀ (r : Fin 16) (i : Nat), 1 ≤ i → i ≤ 48 →
      ∃ q, 1 ≤ q ∧ q ≤ 56 ∧ ∀ k : Block, bit ((schedule k pc1 pc2 shifts).get r) i = bit k q

/-- Rules R151 a and R267 a at `KSCHED`: the eighth derived key byte never reaches the round keys. -/
def Obligations.EighthKeyByteIsDead : Prop :=
  ∀ (s : State) (b : Byte), s.tblv = true → s.klen.val = 8 → EntriesWithin s.tables.pc1 56 →
    ∃ t u, exec .ksched s = .next t ∧ exec .ksched { s with kbuf := s.kbuf.set 7 b } = .next u ∧
      u.rk = t.rk

/-! ### The round function and the block commands -/

/-- Rules R161 to R168: every bit of `F(R, K)`, in the register terms of rule R168. -/
def Obligations.RoundFunctionBits : Prop :=
  ∀ (t : Tables) (r : Half) (k x : RoundKey),
    (∀ i : Fin 48, bit x (i.val + 1) = (bit r (t.e.get i).toNat ^^ bit k (i.val + 1))) →
    ∀ (i : Fin 32) (g : Fin 8) (q : Nat), (t.p.get i).toNat = 4 * g.val + q → 1 ≤ q → q ≤ 4 →
      ∀ (row : Fin 4) (col : Fin 16),
        row.val = 2 * (x.getLsbD (47 - 6 * g.val)).toNat + (x.getLsbD (42 - 6 * g.val)).toNat →
        col.val = (x.toNat / 2 ^ (43 - 6 * g.val)) % 16 →
        bit (roundFunction t r k) (i.val + 1) = bit (((t.s.get g).get row).get col) q

/-- Rules R181 to R184: the sixteen rounds and the final swap. -/
def Obligations.FeistelFollowsTheRounds : Prop :=
  ∀ (t : Tables) (b : Block) (ks : Vector RoundKey 16) (l r : Nat → Half),
    l 0 = b.extractLsb' 32 32 → r 0 = b.extractLsb' 0 32 →
    (∀ (i : Nat) (h : i < 16), l (i + 1) = r i ∧ r (i + 1) = l i ^^^ roundFunction t (r i) ks[i]) →
    feistel t b ks.toList = r 16 ++ l 16

/-- Rule R186: the Feistel symmetry, for every block, every sixteen keys and every table set, and that the
engine is a bijection on blocks. -/
def Obligations.FeistelSymmetry : Prop :=
  ∀ (t : Tables) (ks : Vector RoundKey 16),
    (∀ b : Block, feistel t (feistel t b ks.toList) ks.toList.reverse = b) ∧
    Function.Bijective fun b : Block => feistel t b ks.toList

/-- Rule R187: `BLKENC`. -/
def Obligations.BlkencTransformsTheBlockRegister : Prop :=
  decodeWord 0x00000010#32 = .ok .blkenc ∧
    ∀ s : State,
      (s.rkv = true → exec .blkenc s = .next { s with blk := feistel s.tables s.blk s.rk.toList }) ∧
      (s.rkv = false → exec .blkenc s = .next (latched .nokey s))

/-- Rule R188: `BLKDEC`. -/
def Obligations.BlkdecTransformsTheBlockRegister : Prop :=
  decodeWord 0x00000110#32 = .ok .blkdec ∧
    ∀ s : State,
      (s.rkv = true → exec .blkdec s = .next { s with blk := feistel s.tables s.blk s.rk.toList.reverse }) ∧
      (s.rkv = false → exec .blkdec s = .next (latched .nokey s))

/-- Rules R187 and R188, corner cases: each block command undoes the other. -/
def Obligations.BlockCommandsUndoEachOther : Prop :=
  ∀ s : State, s.rkv = true →
    (∃ t, exec .blkenc s = .next t ∧ exec .blkdec t = .next s) ∧
    ∃ t, exec .blkdec s = .next t ∧ exec .blkenc t = .next s

/-! ### The message commands -/

/-- Rule R209: `MSGENC`. The message bytes are those of the transformed and truncated blocks, every other
byte of the buffer and every other element is unchanged. -/
def Obligations.MsgencTransformsTheMessage : Prop :=
  decodeWord 0x00000011#32 = .ok .msgenc ∧
    ∀ s : State, Memory.wf s.mbuf = true →
      (s.rkv = true → s.mlen.val ≠ 0 → ∃ m, exec .msgenc s = .next { s with mbuf := m } ∧
        Memory.wf m = true ∧ TransformedMessage s.tables s.rk.toList s.mlen s.mbuf m) ∧
      (s.rkv = false → exec .msgenc s = .next (latched .nokey s)) ∧
      (s.rkv = true → s.mlen.val = 0 → exec .msgenc s = .next (latched .msg s))

/-- Rule R210: `MSGDEC`, with the round keys in reverse order. -/
def Obligations.MsgdecTransformsTheMessage : Prop :=
  decodeWord 0x00000111#32 = .ok .msgdec ∧
    ∀ s : State, Memory.wf s.mbuf = true →
      (s.rkv = true → s.mlen.val ≠ 0 → ∃ m, exec .msgdec s = .next { s with mbuf := m } ∧
        Memory.wf m = true ∧ TransformedMessage s.tables s.rk.toList.reverse s.mlen s.mbuf m) ∧
      (s.rkv = false → exec .msgdec s = .next (latched .nokey s)) ∧
      (s.rkv = true → s.mlen.val = 0 → exec .msgdec s = .next (latched .msg s))

/-- Rule R212 b: the whole-block round trip, in both orders, for every table set and every round keys. The
whole state comes back. -/
def Obligations.WholeBlockMessageRoundTrip : Prop :=
  ∀ s : State, Memory.wf s.mbuf = true → s.rkv = true → s.mlen.val ≠ 0 → s.mlen.val % 8 = 0 →
    (∃ t, exec .msgenc s = .next t ∧ exec .msgdec t = .next s) ∧
    ∃ t, exec .msgdec s = .next t ∧ exec .msgenc t = .next s

/-- Rule R212 c, the blocks before a partial last one, and R31: whatever the message length, in both orders, the
whole blocks of the message and every byte at the message length or above come back, and nothing but the message
buffer differs. -/
def Obligations.WholeBlocksBeforeAPartialOneRoundTrip : Prop :=
  ∀ (s : State) (i j : Instr), Memory.wf s.mbuf = true → s.rkv = true → s.mlen.val ≠ 0 →
    (i, j) ∈ [(Instr.msgenc, Instr.msgdec), (.msgdec, .msgenc)] →
    ∃ t m, exec i s = .next t ∧ exec j t = .next { s with mbuf := m } ∧ Memory.wf m = true ∧
      ∀ a, a < 8 * (s.mlen.val / 8) ∨ s.mlen.val ≤ a → Memory.read m a = Memory.read s.mbuf a

/-- Rule R212 c: with a partial last block the round trip does not hold in general. In some state that meets the
invariant, with round keys and a message whose length is no multiple of 8, both commands complete and a byte of
the message does not come back. -/
def Obligations.PartialBlockDoesNotRoundTrip : Prop :=
  ∃ s t u : State, s.Inv ∧ s.rkv = true ∧ s.mlen.val % 8 ≠ 0 ∧
    exec .msgenc s = .next t ∧ exec .msgdec t = .next u ∧
    ∃ i, i < s.mlen.val ∧ Memory.read u.mbuf i ≠ Memory.read s.mbuf i

/-- Rules R189 and R212 e: equal whole blocks at two positions of a message give equal output blocks. -/
def Obligations.EqualBlocksGiveEqualOutputBlocks : Prop :=
  ∀ (s : State) (i : Instr) (j j' : Nat), Memory.wf s.mbuf = true → s.rkv = true →
    i = .msgenc ∨ i = .msgdec → 8 * j + 8 ≤ s.mlen.val → 8 * j' + 8 ≤ s.mlen.val →
    (∀ k, k < 8 → Memory.read s.mbuf (8 * j + k) = Memory.read s.mbuf (8 * j' + k)) →
    ∃ t, exec i s = .next t ∧
      ∀ k, k < 8 → Memory.read t.mbuf (8 * j + k) = Memory.read t.mbuf (8 * j' + k)

/-! ### Host scripts -/

/-- Rule R100: the results of `GETBLK` and `GETMSG`. Both scripts run to their end from every state; the word at
`BLK_HI` is the upper half of the result. -/
def Obligations.ScriptReadsGiveTheirResults : Prop :=
  (∀ hi lo : Word, (Script.blockRead [.word hi, .word lo]).map BitVec.toNat =
    some (hi.toNat * 2 ^ 32 + lo.toNat)) ∧
  ∀ s : State, Script.getBlkResult s = some s.blk ∧
    ∀ n, n ≤ Config.msgMax → Script.getMsgResult n s = some ((List.range n).map (Memory.read s.mbuf))

/-- Rules R100 and R211, with R141 for the key: the texts that `encrypt` and `decrypt` return, with tables and for a
message of 1 to `MSG_MAX` bytes. The key is any string of 1 byte or more whose length is a 32-bit value. -/
def Obligations.EncryptAndDecryptReturnTheText : Prop :=
  ∀ (s : State) (m k : List Byte) (key : Block), Memory.wf s.mbuf = true → s.tblv = true →
    m ≠ [] → m.length ≤ Config.msgMax → k ≠ [] → k.length < 2 ^ 32 →
    (∀ i, i < 8 → k[i % min k.length 8]? = some (blockByte key i)) →
    let ks := (schedule key s.tables.pc1 s.tables.pc2 Config.shifts).toList
    (∃ c, Script.encryptText m k s = some c ∧ TransformedText s.tables ks m c) ∧
      ∃ c, Script.decryptText m k s = some c ∧ TransformedText s.tables ks.reverse m c

/-! ### Rules about the whole machine -/

/-- Rules R236, R239 and R264: a latched error stays until `CLRERR` or a reset. -/
def Obligations.FirstErrorIsKeptUntilAcknowledged : Prop :=
  ∀ s t : State, s.err ≠ .ok → step s = .next t →
    t.err = s.err ∨ t.err = .ok ∧ (CommandsNext s 0x00000003#32 ∨ ResetsNext s)

/-- Rules R33 and R240: no operation reads the latch, but for a read of `STATUS`: two states that differ in
the latch at most answer states that differ in the latch and in the response to that read at most. -/
def Obligations.OperationsRunTheSameWhateverTheLatch : Prop :=
  ∀ s u t : State, SameButLatch s u → step s = .next t →
    ∃ v, step u = .next v ∧ SameButLatch { t with responses := [] } { v with responses := [] } ∧
      (s.pending.head? ≠ some (.read 0x0008#16 .w4) → v.responses = t.responses)

/-- Rules R22, R80 and R271: while the tables exist, only a reset changes them, `TBLV` or `SEED`. -/
def Obligations.TablesAndSeedStayUntilReset : Prop :=
  ∀ s t : State, s.tblv = true → step s = .next t →
    t.tblv = true ∧ t.tables = s.tables ∧ t.seed = s.seed ∨ ResetsNext s

/-- Rules R27, R29 and R265: `KEY` and `RK` change only at `KSCHED` or a reset, and `RKV` falls only at a
reset. -/
def Obligations.RoundKeysAreASnapshotOfKsched : Prop :=
  ∀ s t : State, step s = .next t →
    (s.rkv = true → t.rkv = true ∨ ResetsNext s) ∧
    (t.key = s.key ∧ t.rk = s.rk ∧ t.rkv = s.rkv ∨ CommandsNext s 0x00000002#32 ∨ ResetsNext s)

/-- Rule R47 at reset. -/
def Obligations.InvariantHoldsAtReset : Prop := State.reset.Inv

/-- Rule R47: every step keeps the invariant, from every state that meets it. -/
def Obligations.EveryStepKeepsTheInvariant : Prop :=
  ∀ s t : State, s.Inv → step s = .next t → t.Inv

/-- Rules R46, R61 and R96: the step is total, so FCE never stops. -/
def Obligations.EveryStepAnswersANextState : Prop := ∀ s : State, s.GoesOn

/-- Rules R61 and R76: the pending operations are handled in order, each with exactly one response. The count runs
through resets. That operations and responses are lists of the state, that a reset leaves the two lists and that
the reset input is answered are the model's choices (notes/assumptions/1.md, 2.md, 5.md and 11.md). -/
def Obligations.OneResponsePerOperationInOrder : Prop :=
  ∀ s : State, ∃ (t : State) (rs : List Resp),
    Sys2Proof.core.run s.pending.length s = .next t ∧ t.pending = [] ∧
    t.responses = s.responses ++ rs ∧ rs.length = s.pending.length ∧
    ∀ (op : HostOp) (rest : List HostOp), s.pending = op :: rest →
      ∃ u r, step s = .next u ∧ rs.head? = some r ∧ u.responses = s.responses ++ [r] ∧ u.pending = rest
end

