-- ==== Sys2Proof/Laws/BitString.lean ====
section
/-! SUPPORT. The bit positions of bit strings, table select and bytes of a block. -/

namespace Sys2Proof.Machine

/-- A position as a bit counted from the most significant one. -/
theorem bit_eq_getMsbD {n : Nat} (s : BitVec n) (i : Nat) :
    bit s i = (decide (1 ≤ i) && s.getMsbD (i - 1)) := by
  unfold bit
  rw [BitVec.getMsbD_eq_getLsbD]
  by_cases h1 : 1 ≤ i
  · by_cases h2 : i ≤ n
    · have : n - 1 - (i - 1) = n - i := by omega
      have h3 : i - 1 < n := by omega
      simp [h1, h2, h3, this]
    · have h3 : ¬ i - 1 < n := by omega
      simp [h1, h2, h3]
  · simp [h1]

/-- Two bit strings with the same bits at the positions `1..n` are equal. -/
theorem eq_of_bit {n : Nat} {s t : BitVec n} (h : ∀ i, 1 ≤ i → i ≤ n → bit s i = bit t i) : s = t := by
  refine BitVec.eq_of_getMsbD_eq fun i hi => ?_
  have := h (i + 1) (by omega) (by omega)
  simpa [bit_eq_getMsbD] using this

/-- Rule R10: bit `i` of `sel(s, T)` is bit `T[i]` of `s`. -/
theorem bit_sel {n k m : Nat} (s : BitVec n) (t : Vector (BitVec k) m) (i : Nat) (hi : i < m) :
    bit (sel s t) (i + 1) = bit s (t.get ⟨i, hi⟩).toNat := by
  rw [bit_eq_getMsbD, sel, BitVec.getMsbD_ofFnBE]
  simp [hi]

/-- Byte `k` of eight packed bytes. -/
theorem blockByte_packBlock (f : Nat → Byte) (k : Nat) (hk : k < 8) : blockByte (packBlock f) k = f k := by
  unfold blockByte packBlock
  refine BitVec.eq_of_getLsbD_eq fun i hi => ?_
  have : k = 0 ∨ k = 1 ∨ k = 2 ∨ k = 3 ∨ k = 4 ∨ k = 5 ∨ k = 6 ∨ k = 7 := by omega
  rcases this with rfl | rfl | rfl | rfl | rfl | rfl | rfl | rfl <;>
    simp only [BitVec.getLsbD_extractLsb', BitVec.getLsbD_append, hi, decide_true, Bool.true_and] <;>
    (repeat' split) <;> first | omega | (congr 1; omega)

/-- A block is its eight bytes. -/
theorem packBlock_blockByte (b : Block) : packBlock (blockByte b) = b := by
  have glue := fun (start₁ len₂ start₂ len₁ : Nat) (h : start₂ = start₁ + len₁) =>
    BitVec.extractLsb'_append_extractLsb'_eq_extractLsb' (x := b) (len₂ := len₂) h
  simp only [packBlock, blockByte, Nat.mul_zero, Nat.sub_zero, Nat.mul_one, Nat.reduceMul, Nat.reduceSub]
  rw [glue 48 8 56 8 rfl, glue 40 16 48 8 rfl, glue 32 24 40 8 rfl, glue 24 32 32 8 rfl,
    glue 16 40 24 8 rfl, glue 8 48 16 8 rfl, glue 0 56 8 8 rfl]
  exact BitVec.extractLsb'_eq_self

/-- Packing looks at the bytes 0 to 7 only. -/
theorem packBlock_congr {f g : Nat → Byte} (h : ∀ k, k < 8 → f k = g k) : packBlock f = packBlock g := by
  simp [packBlock, h]

/-- Two blocks with the same bytes are equal. -/
theorem eq_of_blockByte {b c : Block} (h : ∀ k, k < 8 → blockByte b k = blockByte c k) : b = c := by
  rw [← packBlock_blockByte b, ← packBlock_blockByte c, packBlock_congr h]

/-- The halves of a block make the block. -/
theorem halves_append (b : Block) : (b.extractLsb' 32 32 ++ b.extractLsb' 0 32 : Block) = b := by
  have := BitVec.extractLsb'_append_extractLsb'_eq_extractLsb' (x := b) (start₁ := 0) (len₁ := 32)
    (start₂ := 32) (len₂ := 32) rfl
  simpa using this

/-- The left half of two halves. -/
theorem extract_high_append (l r : Half) : ((l ++ r : Block).extractLsb' 32 32) = l := by
  refine BitVec.eq_of_getLsbD_eq fun i hi => ?_
  rw [BitVec.getLsbD_extractLsb', BitVec.getLsbD_append]
  simp [hi]

/-- The right half of two halves. -/
theorem extract_low_append (l r : Half) : ((l ++ r : Block).extractLsb' 0 32) = r := by
  refine BitVec.eq_of_getLsbD_eq fun i hi => ?_
  rw [BitVec.getLsbD_extractLsb', BitVec.getLsbD_append]
  simp [hi]

/-- Rule R13: bit `i` of `rotl(s, k)`. -/
theorem bit_rotl (s : KeyHalf) (k i : Nat) (h1 : 1 ≤ i) (h2 : i ≤ 28) :
    bit (rotl s k) i = bit s ((i - 1 + k) % 28 + 1) := by
  unfold bit rotl
  rw [BitVec.getLsbD_rotateLeft]
  have hm := Nat.mod_lt (i - 1 + k) (show 0 < 28 by decide)
  simp only [h1, h2, decide_true, true_and, Bool.true_and]
  rw [show (decide (1 ≤ (i - 1 + k) % 28 + 1 ∧ (i - 1 + k) % 28 + 1 ≤ 28)) = true by simp; omega]
  rw [Bool.cond_decide]
  split
  · simp only [Bool.true_and]; congr 1; omega
  · rw [show decide (28 - i < 28) = true by simp; omega, Bool.true_and, Bool.true_and]; congr 1; omega

/-- Rule R13: where `rotr(s, k)` moves bit `i`. -/
theorem bit_rotr (s : KeyHalf) (k i : Nat) (h1 : 1 ≤ i) (h2 : i ≤ 28) :
    bit (rotr s k) ((i - 1 + k) % 28 + 1) = bit s i := by
  unfold bit rotr
  rw [BitVec.getLsbD_rotateRight]
  have hm := Nat.mod_lt (i - 1 + k) (show 0 < 28 by decide)
  simp only [h1, h2, decide_true, Bool.true_and, true_and]
  rw [show (decide (1 ≤ (i - 1 + k) % 28 + 1 ∧ (i - 1 + k) % 28 + 1 ≤ 28)) = true by simp; omega]
  rw [Bool.cond_decide]
  split
  · simp only [Bool.true_and]; congr 1; omega
  · rw [Bool.true_and, show decide (28 - ((i - 1 + k) % 28 + 1) < 28) = true by simp; omega, Bool.true_and]
    congr 1; omega

/-- Every position is the one that a rotation moves some position to. -/
theorem position_from (k i : Nat) (h1 : 1 ≤ i) (h2 : i ≤ 28) :
    ∃ j, 1 ≤ j ∧ j ≤ 28 ∧ (j - 1 + k) % 28 + 1 = i :=
  ⟨(i - 1 + 28 - k % 28) % 28 + 1, by omega, by omega, by omega⟩

/-- Rotations in a row add up. -/
theorem rotl_add (s : KeyHalf) (k l : Nat) : rotl (rotl s k) l = rotl s (k + l) := by
  refine eq_of_bit fun i h1 h2 => ?_
  rw [bit_rotl _ _ _ h1 h2, bit_rotl _ _ _ (by omega) (by omega), bit_rotl _ _ _ h1 h2]
  congr 1; omega

/-- Rotations in a row add up. -/
theorem rotr_add (s : KeyHalf) (k l : Nat) : rotr (rotr s k) l = rotr s (k + l) := by
  refine eq_of_bit fun i h1 h2 => ?_
  obtain ⟨j, hj1, hj2, rfl⟩ := position_from (k + l) i h1 h2
  rw [bit_rotr _ (k + l) _ hj1 hj2]
  have : (j - 1 + (k + l)) % 28 + 1 = (((j - 1 + k) % 28 + 1) - 1 + l) % 28 + 1 := by omega
  rw [this, bit_rotr _ l _ (by omega) (by omega), bit_rotr _ k _ hj1 hj2]

/-- A right rotation undoes the left one. -/
theorem rotr_rotl (s : KeyHalf) (k : Nat) : rotr (rotl s k) k = s := by
  refine eq_of_bit fun i h1 h2 => ?_
  obtain ⟨j, hj1, hj2, rfl⟩ := position_from k i h1 h2
  rw [bit_rotr _ _ _ hj1 hj2, bit_rotl _ _ _ hj1 hj2]

theorem rotl_zero (s : KeyHalf) : rotl s 0 = s := by
  refine eq_of_bit fun i h1 h2 => ?_
  rw [bit_rotl _ _ _ h1 h2]
  congr 1; omega

/-- A rotation counts modulo the length. -/
theorem rotl_mod (s : KeyHalf) (k : Nat) : rotl s (k % 28) = rotl s k := by
  refine eq_of_bit fun i h1 h2 => ?_
  rw [bit_rotl _ _ _ h1 h2, bit_rotl _ _ _ h1 h2]
  congr 1; omega

theorem rotr_zero (s : KeyHalf) : rotr s 0 = s := by
  refine eq_of_bit fun i h1 h2 => ?_
  have := bit_rotr s 0 i h1 h2
  rwa [show (i - 1 + 0) % 28 + 1 = i by omega] at this

/-- A rotation counts modulo the length. -/
theorem rotr_mod (s : KeyHalf) (k : Nat) : rotr s (k % 28) = rotr s k := by
  refine eq_of_bit fun i h1 h2 => ?_
  obtain ⟨j, hj1, hj2, rfl⟩ := position_from k i h1 h2
  have := bit_rotr s (k % 28) j hj1 hj2
  rw [show (j - 1 + k % 28) % 28 + 1 = (j - 1 + k) % 28 + 1 by omega] at this
  rw [this, bit_rotr _ _ _ hj1 hj2]

/-- The bits of the two key halves joined. -/
theorem bit_append (x y : KeyHalf) (i : Nat) :
    bit (x ++ y) i = if i ≤ 28 then bit x i else bit y (i - 28) := by
  unfold bit
  rw [BitVec.getLsbD_append]
  by_cases h0 : 1 ≤ i
  · by_cases h : i ≤ 28
    · rw [if_pos h, if_neg (by omega)]
      simp [h0, h, show i ≤ 56 by omega]
      congr 1; omega
    · rw [if_neg h]
      by_cases h56 : i ≤ 56
      · rw [if_pos (by omega)]
        simp [h0, h56, show 1 ≤ i - 28 by omega, show i - 28 ≤ 28 by omega]
        congr 1; omega
      · simp [show ¬ i ≤ 28 + 28 by omega, show ¬ (i - 28 ≤ 28) by omega]
  · simp [h0, show i ≤ 28 by omega]

/-- The bits of the first half of 56 bits. -/
theorem bit_high (x : BitVec 56) (i : Nat) (h1 : 1 ≤ i) (h2 : i ≤ 28) : bit (x.extractLsb' 28 28) i = bit x i := by
  unfold bit
  rw [BitVec.getLsbD_extractLsb']
  simp [h1, h2, show i ≤ 56 by omega, show 28 - i < 28 by omega]
  congr 1; omega

/-- The bits of the second half of 56 bits. -/
theorem bit_low (x : BitVec 56) (i : Nat) (h1 : 1 ≤ i) (h2 : i ≤ 28) : bit (x.extractLsb' 0 28) i = bit x (i + 28) := by
  unfold bit
  rw [BitVec.getLsbD_extractLsb']
  simp [h1, h2, show i + 28 ≤ 56 by omega, show 28 - i < 28 by omega]

/-- The bits of a block, byte by byte. -/
theorem bit_block (b : Block) (i : Nat) (h1 : 1 ≤ i) (h2 : i ≤ 64) :
    bit b i = bit (blockByte b ((i - 1) / 8)) ((i - 1) % 8 + 1) := by
  unfold bit blockByte
  rw [BitVec.getLsbD_extractLsb']
  simp [h1, h2, show (i - 1) % 8 + 1 ≤ 8 by omega, show 7 - (i - 1) % 8 < 8 by omega]
  congr 1; omega

end Sys2Proof.Machine
end

