-- ==== Sys2Proof/Laws/Datapath.lean ====
section
/-! SUPPORT. The bits of the key schedule and of the round function, and what one round does. -/

namespace Sys2Proof.Machine

/-- The halves of rule R144, bit by bit: `C`. -/
theorem bit_initialHalves_fst (k : Block) (pc1 : Vector (BitVec 6) 56) (i : Nat) (h : i < 28) :
    bit (initialHalves k pc1).1 (i + 1) = bit k (pc1.get ⟨i, by omega⟩).toNat := by
  unfold initialHalves
  rw [bit_high _ _ (by omega) (by omega), bit_sel _ _ _ (by omega)]

/-- The halves of rule R144, bit by bit: `D`. -/
theorem bit_initialHalves_snd (k : Block) (pc1 : Vector (BitVec 6) 56) (i : Nat) (h : i < 28) :
    bit (initialHalves k pc1).2 (i + 1) = bit k (pc1.get ⟨i + 28, by omega⟩).toNat := by
  unfold initialHalves
  rw [bit_low _ _ (by omega) (by omega), show i + 1 + 28 = i + 28 + 1 by omega, bit_sel _ _ _ (by omega)]

/-- A round key, bit by bit (rule R148). -/
theorem bit_schedule (k : Block) (pc1 pc2 : Vector (BitVec 6) 56) (shifts : Vector Nat 16) (r : Fin 16)
    (i : Nat) (h : i < 48) :
    bit ((schedule k pc1 pc2 shifts).get r) (i + 1) =
      bit ((halvesAfter shifts (initialHalves k pc1) (r.val + 1)).1 ++
        (halvesAfter shifts (initialHalves k pc1) (r.val + 1)).2) (pc2.get ⟨i, by omega⟩).toNat := by
  unfold schedule
  rw [Vector.get_eq_getElem, Vector.getElem_ofFn]
  rw [bit_sel _ _ _ h]
  simp only [pc2Used, Vector.get_eq_getElem, Vector.getElem_ofFn]

/-- The substituted half, bit by bit (rule R166). -/
theorem bit_substituted (t : Tables) (x : RoundKey) (g : Fin 8) (q : Nat) (h1 : 1 ≤ q) (h2 : q ≤ 4) :
    bit (substituted t x) (4 * g.val + q) = bit (substitute t x g) q := by
  unfold bit substituted
  rw [show decide (1 ≤ q ∧ q ≤ 4) = true by simp; omega,
    show decide (1 ≤ 4 * g.val + q ∧ 4 * g.val + q ≤ 32) = true by simp; omega]
  simp only [BitVec.getLsbD_append, Bool.true_and]
  fin_cases g <;> simp only [] <;> (repeat' split) <;> first | omega | (congr 1; simp; done) | (congr 1; simp; omega)

/-- The round function, bit by bit, above its substituted half (rule R167). -/
theorem bit_roundFunction (t : Tables) (r : Half) (k : RoundKey) (i : Nat) (h : i < 32) :
    bit (roundFunction t r k) (i + 1) = bit (substituted t (mixedHalf t r k)) (t.p.get ⟨i, h⟩).toNat :=
  bit_sel _ _ _ h

/-- The two halves after the rounds make the block, swapped (rule R184). -/
theorem feistel_eq (t : Tables) (b : Block) (ks : List RoundKey) :
    feistel t b ks = (ks.foldl (feistelRound t) (b.extractLsb' 32 32, b.extractLsb' 0 32)).2 ++
      (ks.foldl (feistelRound t) (b.extractLsb' 32 32, b.extractLsb' 0 32)).1 := rfl

/-- A round is undone by the round with its two halves swapped. -/
theorem feistelRound_swap (t : Tables) (lr : Half × Half) (k : RoundKey) :
    feistelRound t (feistelRound t lr k).swap k = lr.swap := by
  simp [feistelRound, Prod.swap]

end Sys2Proof.Machine
end

