-- ==== Sys2Proof/Laws/Decode.lean ====
section
/-! SUPPORT. The fields of a command word and the opcode map. -/

namespace Sys2Proof

/-- The fields of a word make the word again. -/
theorem RawCommand.toWord_ofWord (w : Word) : (RawCommand.ofWord w).toWord = w := by
  have glue := fun (start₁ len₂ start₂ len₁ : Nat) (h : start₂ = start₁ + len₁) =>
    BitVec.extractLsb'_append_extractLsb'_eq_extractLsb' (x := w) (len₂ := len₂) h
  unfold RawCommand.ofWord RawCommand.toWord
  simp only
  rw [glue 8 23 9 1 rfl, glue 0 24 8 8 rfl]
  exact BitVec.extractLsb'_eq_self

/-- What the opcode map selects has the fields it was selected by. -/
theorem fields_of_selectCommand {d : BitVec 1} {o : BitVec 8} {i : Instr} (h : selectCommand d o = some i) :
    i.fields = ⟨0#23, d, o⟩ := by
  unfold selectCommand at h
  rw [Option.map_eq_some_iff] at h
  obtain ⟨r, hr, rfl⟩ := h
  have hm := List.mem_of_find?_eq_some hr
  have hp := List.find?_some hr
  simp at hp
  obtain ⟨rfl, rfl⟩ := hp
  simp [opcodeMap] at hm
  rcases hm with rfl | rfl | rfl | rfl | rfl | rfl | rfl | rfl | rfl <;> rfl

end Sys2Proof
end

