-- ==== Sys2Proof/Laws/Memory.lean ====
section
/-! SUPPORT. The laws of the message buffer: what a write does to every index, that every operation keeps the
canonical form, and that two canonical buffers with the same bytes are equal. -/

namespace Sys2Proof.Machine.Memory

/-- The order part of the canonical form. -/
abbrev Rising (m : Memory) : Prop := m.Pairwise fun x y => x.1 < y.1

/-- The content part of the canonical form. -/
abbrev Listable (c : Host.Cell) : Prop := c.1 < Config.msgMax ∧ c.2 ≠ unlisted

theorem wf_iff (m : Memory) : wf m = true ↔ Rising m ∧ ∀ c ∈ m, Listable c := by
  simp [wf, List.all_eq_true]

theorem wf_nil : wf [] = true := by decide

theorem Rising.tail {k : Nat} {c : Byte} {m : Memory} (h : Rising ((k, c) :: m)) : Rising m :=
  (List.pairwise_cons.1 h).2

theorem Rising.head_lt {k : Nat} {c : Byte} {m : Memory} (h : Rising ((k, c) :: m)) :
    ∀ x ∈ m, k < x.1 := (List.pairwise_cons.1 h).1

@[simp] theorem read_nil (a : Nat) : read [] a = unlisted := rfl

@[simp] theorem read_cell (k a : Nat) (c : Byte) (m : Memory) :
    read ((k, c) :: m) a = if k = a then c else read m a := rfl

/-- An index below every cell reads as an unlisted one. -/
theorem read_of_lt : ∀ (m : Memory) (a : Nat), (∀ x ∈ m, a < x.1) → read m a = unlisted
  | [], _, _ => rfl
  | (k, c) :: m, a, h => by
    have hk : a < k := h (k, c) (by simp)
    rw [read_cell, if_neg (by omega)]
    exact read_of_lt m a fun x hx => h x (by simp [hx])

theorem read_cons (a x : Nat) (b : Byte) (m : Memory) (h : ∀ y ∈ m, a < y.1) :
    read (cons a b m) x = if a = x then b else read m x := by
  unfold cons
  split
  · next hb =>
    split
    · next hx => subst hx; rw [hb, read_of_lt m a h]
    · rfl
  · rfl

/-- Reading after a write, at every index. -/
theorem read_write : ∀ (m : Memory) (a x : Nat) (b : Byte), Rising m →
    read (write m a b) x = if a = x then b else read m x
  | [], a, x, b, _ => by simpa [write] using read_cons a x b [] (by simp)
  | (k, c) :: m, a, x, b, h => by
    unfold write
    split
    · next hlt =>
      refine read_cons a x b _ fun y hy => ?_
      rcases List.mem_cons.1 hy with rfl | hy
      · exact hlt
      · exact hlt.trans (h.head_lt y hy)
    · split
      · next heq =>
        subst heq
        rw [read_cons a x b m h.head_lt, read_cell]
        split <;> rfl
      · rw [read_cell, read_write m a x b h.tail, read_cell]
        split <;> split <;> first | rfl | omega

theorem mem_cons_cell {a : Nat} {b : Byte} {m : Memory} {y : Host.Cell} (hy : y ∈ cons a b m) :
    y ∈ m ∨ y = (a, b) ∧ b ≠ unlisted := by
  unfold cons at hy
  split at hy
  · exact .inl hy
  · next hb => rcases List.mem_cons.1 hy with rfl | hy
               · exact .inr ⟨rfl, hb⟩
               · exact .inl hy

/-- The cells after a write are old cells and the one written. -/
theorem mem_write : ∀ (m : Memory) (a : Nat) (b : Byte) (y : Host.Cell), y ∈ write m a b →
    y ∈ m ∨ y = (a, b) ∧ b ≠ unlisted
  | [], a, b, y, hy => mem_cons_cell hy
  | (k, c) :: m, a, b, y, hy => by
    unfold write at hy
    split at hy
    · exact mem_cons_cell hy
    · split at hy
      · exact (mem_cons_cell hy).imp_left (List.mem_cons_of_mem _)
      · rcases List.mem_cons.1 hy with rfl | hy
        · exact .inl (by simp)
        · exact (mem_write m a b y hy).imp_left (List.mem_cons_of_mem _)

theorem rising_cons (a : Nat) (b : Byte) (m : Memory) (h : Rising m) (ha : ∀ y ∈ m, a < y.1) :
    Rising (cons a b m) := by
  unfold cons
  split
  · exact h
  · exact List.pairwise_cons.2 ⟨ha, h⟩

theorem rising_write : ∀ (m : Memory) (a : Nat) (b : Byte), Rising m → Rising (write m a b)
  | [], a, b, _ => rising_cons a b [] List.Pairwise.nil (by simp)
  | (k, c) :: m, a, b, h => by
    unfold write
    split
    · next hlt =>
      refine rising_cons a b _ h fun y hy => ?_
      rcases List.mem_cons.1 hy with rfl | hy
      · exact hlt
      · exact hlt.trans (h.head_lt y hy)
    · split
      · next heq => subst heq; exact rising_cons a b m h.tail h.head_lt
      · refine List.pairwise_cons.2 ⟨fun y hy => ?_, rising_write m a b h.tail⟩
        rcases mem_write m a b y hy with hy | ⟨rfl, -⟩
        · exact h.head_lt y hy
        · show k < a
          omega

/-- A write inside the buffer keeps the canonical form. -/
theorem wf_write (m : Memory) (a : Nat) (b : Byte) (ha : a < Config.msgMax) (h : wf m = true) :
    wf (write m a b) = true := by
  rw [wf_iff] at h ⊢
  refine ⟨rising_write m a b h.1, fun c hc => ?_⟩
  rcases mem_write m a b c hc with hc | ⟨rfl, hb⟩
  · exact h.2 c hc
  · exact ⟨ha, hb⟩

theorem rising_memWriteBytes (m : Memory) (a : Nat) (b : Block) (h : Rising m) :
    ∀ n, Rising (memWriteBytes m a b n)
  | 0 => h
  | n + 1 => rising_write _ _ _ (rising_memWriteBytes m a b h n)

/-- Writing the first bytes of a block keeps the canonical form. -/
theorem wf_memWriteBytes (m : Memory) (a : Nat) (b : Block) (h : wf m = true) :
    ∀ n, a + n ≤ Config.msgMax → wf (memWriteBytes m a b n) = true
  | 0, _ => h
  | n + 1, hn => wf_write _ _ _ (by omega) (wf_memWriteBytes m a b h n (by omega))

/-- What writing the first `n` bytes of a block at `a` does to every index. -/
theorem read_memWriteBytes (m : Memory) (a x : Nat) (b : Block) (h : Rising m) :
    ∀ n, read (memWriteBytes m a b n) x = if a ≤ x ∧ x < a + n then blockByte b (x - a) else read m x
  | 0 => by simp [memWriteBytes]
  | n + 1 => by
    rw [memWriteBytes, read_write _ _ _ _ (rising_memWriteBytes m a b h n),
      read_memWriteBytes m a x b h n]
    by_cases hx : a + n = x
    · subst hx; simp
    · have : (a ≤ x ∧ x < a + n) ↔ (a ≤ x ∧ x < a + (n + 1)) := by omega
      rw [if_neg hx]; simp [this]

/-- Reading a padded chunk reads the bytes of the chunk only. -/
theorem memReadPadded_congr (m m' : Memory) (a n : Nat)
    (h : ∀ k, k < n → read m (a + k) = read m' (a + k)) : memReadPadded m a n = memReadPadded m' a n := by
  unfold memReadPadded
  congr 1
  funext k
  split
  · next hk => exact h k hk
  · rfl

/-- Two canonical buffers with the same bytes are equal. -/
theorem eq_of_read : ∀ (m m' : Memory), Rising m → Rising m' → (∀ c ∈ m, c.2 ≠ unlisted) →
    (∀ c ∈ m', c.2 ≠ unlisted) → (∀ a, read m a = read m' a) → m = m'
  | [], [], _, _, _, _, _ => rfl
  | [], (k, c) :: m', _, _, _, n', e => by
    have := e k
    simp only [read_nil, read_cell, if_true] at this
    exact absurd this.symm (n' (k, c) (by simp))
  | (k, c) :: m, [], _, _, n, _, e => by
    have := e k
    simp only [read_nil, read_cell, if_true] at this
    exact absurd this (n (k, c) (by simp))
  | (k, c) :: m, (k', c') :: m', h, h', n, n', e => by
    have hc : c ≠ unlisted := n (k, c) (by simp)
    have hc' : c' ≠ unlisted := n' (k', c') (by simp)
    have hk : k = k' := by
      rcases Nat.lt_trichotomy k k' with hlt | heq | hlt
      · have := e k
        rw [read_of_lt ((k', c') :: m') k (fun x hx => by
          rcases List.mem_cons.1 hx with rfl | hx
          · exact hlt
          · exact hlt.trans (h'.head_lt x hx))] at this
        simp at this; exact absurd this hc
      · exact heq
      · have := e k'
        rw [read_of_lt ((k, c) :: m) k' (fun x hx => by
          rcases List.mem_cons.1 hx with rfl | hx
          · exact hlt
          · exact hlt.trans (h.head_lt x hx))] at this
        simp at this; exact absurd this.symm hc'
    subst hk
    have hcc : c = c' := by simpa using e k
    subst hcc
    congr 1
    refine eq_of_read m m' h.tail h'.tail (fun x hx => n x (by simp [hx])) (fun x hx => n' x (by simp [hx]))
      fun a => ?_
    by_cases ha : k = a
    · subst ha; rw [read_of_lt m k h.head_lt, read_of_lt m' k h'.head_lt]
    · simpa [ha] using e a

/-- Two well-formed buffers with the same bytes are equal. -/
theorem ext_of_wf {m m' : Memory} (h : wf m = true) (h' : wf m' = true)
    (e : ∀ a, read m a = read m' a) : m = m' := by
  rw [wf_iff] at h h'
  exact eq_of_read m m' h.1 h'.1 (fun c hc => (h.2 c hc).2) (fun c hc => (h'.2 c hc).2) e

end Sys2Proof.Machine.Memory
end

