-- ==== Sys2Proof/Laws/State.lean ====
section
/-! SUPPORT. One lemma per field per update of the state, so that no proof unfolds a record update. -/

namespace Sys2Proof.Machine

variable (s : State)

/-! `setSeed` -/
@[simp] theorem State.setSeed_seed (v : Word) : (s.setSeed v).seed = v := rfl
@[simp] theorem State.setSeed_tblv (v : Word) : (s.setSeed v).tblv = s.tblv := rfl
@[simp] theorem State.setSeed_tables (v : Word) : (s.setSeed v).tables = s.tables := rfl
@[simp] theorem State.setSeed_kbuf (v : Word) : (s.setSeed v).kbuf = s.kbuf := rfl
@[simp] theorem State.setSeed_klen (v : Word) : (s.setSeed v).klen = s.klen := rfl
@[simp] theorem State.setSeed_key (v : Word) : (s.setSeed v).key = s.key := rfl
@[simp] theorem State.setSeed_rk (v : Word) : (s.setSeed v).rk = s.rk := rfl
@[simp] theorem State.setSeed_rkv (v : Word) : (s.setSeed v).rkv = s.rkv := rfl
@[simp] theorem State.setSeed_blk (v : Word) : (s.setSeed v).blk = s.blk := rfl
@[simp] theorem State.setSeed_mbuf (v : Word) : (s.setSeed v).mbuf = s.mbuf := rfl
@[simp] theorem State.setSeed_mlen (v : Word) : (s.setSeed v).mlen = s.mlen := rfl
@[simp] theorem State.setSeed_err (v : Word) : (s.setSeed v).err = s.err := rfl
@[simp] theorem State.setSeed_pending (v : Word) : (s.setSeed v).pending = s.pending := rfl
@[simp] theorem State.setSeed_responses (v : Word) : (s.setSeed v).responses = s.responses := rfl

/-! `setTables` -/
@[simp] theorem State.setTables_seed (t : Tables) : (s.setTables t).seed = s.seed := rfl
@[simp] theorem State.setTables_tblv (t : Tables) : (s.setTables t).tblv = true := rfl
@[simp] theorem State.setTables_tables (t : Tables) : (s.setTables t).tables = t := rfl
@[simp] theorem State.setTables_kbuf (t : Tables) : (s.setTables t).kbuf = s.kbuf := rfl
@[simp] theorem State.setTables_klen (t : Tables) : (s.setTables t).klen = s.klen := rfl
@[simp] theorem State.setTables_key (t : Tables) : (s.setTables t).key = s.key := rfl
@[simp] theorem State.setTables_rk (t : Tables) : (s.setTables t).rk = s.rk := rfl
@[simp] theorem State.setTables_rkv (t : Tables) : (s.setTables t).rkv = s.rkv := rfl
@[simp] theorem State.setTables_blk (t : Tables) : (s.setTables t).blk = s.blk := rfl
@[simp] theorem State.setTables_mbuf (t : Tables) : (s.setTables t).mbuf = s.mbuf := rfl
@[simp] theorem State.setTables_mlen (t : Tables) : (s.setTables t).mlen = s.mlen := rfl
@[simp] theorem State.setTables_err (t : Tables) : (s.setTables t).err = s.err := rfl
@[simp] theorem State.setTables_pending (t : Tables) : (s.setTables t).pending = s.pending := rfl
@[simp] theorem State.setTables_responses (t : Tables) : (s.setTables t).responses = s.responses := rfl

/-! `setKbuf` -/
@[simp] theorem State.setKbuf_seed (i : Fin 8) (b : Byte) : (s.setKbuf i b).seed = s.seed := rfl
@[simp] theorem State.setKbuf_tblv (i : Fin 8) (b : Byte) : (s.setKbuf i b).tblv = s.tblv := rfl
@[simp] theorem State.setKbuf_tables (i : Fin 8) (b : Byte) : (s.setKbuf i b).tables = s.tables := rfl
@[simp] theorem State.setKbuf_kbuf (i : Fin 8) (b : Byte) : (s.setKbuf i b).kbuf = s.kbuf.set i b := rfl
@[simp] theorem State.setKbuf_klen (i : Fin 8) (b : Byte) : (s.setKbuf i b).klen = s.klen := rfl
@[simp] theorem State.setKbuf_key (i : Fin 8) (b : Byte) : (s.setKbuf i b).key = s.key := rfl
@[simp] theorem State.setKbuf_rk (i : Fin 8) (b : Byte) : (s.setKbuf i b).rk = s.rk := rfl
@[simp] theorem State.setKbuf_rkv (i : Fin 8) (b : Byte) : (s.setKbuf i b).rkv = s.rkv := rfl
@[simp] theorem State.setKbuf_blk (i : Fin 8) (b : Byte) : (s.setKbuf i b).blk = s.blk := rfl
@[simp] theorem State.setKbuf_mbuf (i : Fin 8) (b : Byte) : (s.setKbuf i b).mbuf = s.mbuf := rfl
@[simp] theorem State.setKbuf_mlen (i : Fin 8) (b : Byte) : (s.setKbuf i b).mlen = s.mlen := rfl
@[simp] theorem State.setKbuf_err (i : Fin 8) (b : Byte) : (s.setKbuf i b).err = s.err := rfl
@[simp] theorem State.setKbuf_pending (i : Fin 8) (b : Byte) : (s.setKbuf i b).pending = s.pending := rfl
@[simp] theorem State.setKbuf_responses (i : Fin 8) (b : Byte) : (s.setKbuf i b).responses = s.responses := rfl

/-! `setKlen` -/
@[simp] theorem State.setKlen_seed (n : Fin 9) : (s.setKlen n).seed = s.seed := rfl
@[simp] theorem State.setKlen_tblv (n : Fin 9) : (s.setKlen n).tblv = s.tblv := rfl
@[simp] theorem State.setKlen_tables (n : Fin 9) : (s.setKlen n).tables = s.tables := rfl
@[simp] theorem State.setKlen_kbuf (n : Fin 9) : (s.setKlen n).kbuf = s.kbuf := rfl
@[simp] theorem State.setKlen_klen (n : Fin 9) : (s.setKlen n).klen = n := rfl
@[simp] theorem State.setKlen_key (n : Fin 9) : (s.setKlen n).key = s.key := rfl
@[simp] theorem State.setKlen_rk (n : Fin 9) : (s.setKlen n).rk = s.rk := rfl
@[simp] theorem State.setKlen_rkv (n : Fin 9) : (s.setKlen n).rkv = s.rkv := rfl
@[simp] theorem State.setKlen_blk (n : Fin 9) : (s.setKlen n).blk = s.blk := rfl
@[simp] theorem State.setKlen_mbuf (n : Fin 9) : (s.setKlen n).mbuf = s.mbuf := rfl
@[simp] theorem State.setKlen_mlen (n : Fin 9) : (s.setKlen n).mlen = s.mlen := rfl
@[simp] theorem State.setKlen_err (n : Fin 9) : (s.setKlen n).err = s.err := rfl
@[simp] theorem State.setKlen_pending (n : Fin 9) : (s.setKlen n).pending = s.pending := rfl
@[simp] theorem State.setKlen_responses (n : Fin 9) : (s.setKlen n).responses = s.responses := rfl

/-! `setKeys` -/
@[simp] theorem State.setKeys_seed (k : Block) (rk : Vector RoundKey 16) : (s.setKeys k rk).seed = s.seed := rfl
@[simp] theorem State.setKeys_tblv (k : Block) (rk : Vector RoundKey 16) : (s.setKeys k rk).tblv = s.tblv := rfl
@[simp] theorem State.setKeys_tables (k : Block) (rk : Vector RoundKey 16) : (s.setKeys k rk).tables = s.tables := rfl
@[simp] theorem State.setKeys_kbuf (k : Block) (rk : Vector RoundKey 16) : (s.setKeys k rk).kbuf = s.kbuf := rfl
@[simp] theorem State.setKeys_klen (k : Block) (rk : Vector RoundKey 16) : (s.setKeys k rk).klen = s.klen := rfl
@[simp] theorem State.setKeys_key (k : Block) (rk : Vector RoundKey 16) : (s.setKeys k rk).key = k := rfl
@[simp] theorem State.setKeys_rk (k : Block) (rk : Vector RoundKey 16) : (s.setKeys k rk).rk = rk := rfl
@[simp] theorem State.setKeys_rkv (k : Block) (rk : Vector RoundKey 16) : (s.setKeys k rk).rkv = true := rfl
@[simp] theorem State.setKeys_blk (k : Block) (rk : Vector RoundKey 16) : (s.setKeys k rk).blk = s.blk := rfl
@[simp] theorem State.setKeys_mbuf (k : Block) (rk : Vector RoundKey 16) : (s.setKeys k rk).mbuf = s.mbuf := rfl
@[simp] theorem State.setKeys_mlen (k : Block) (rk : Vector RoundKey 16) : (s.setKeys k rk).mlen = s.mlen := rfl
@[simp] theorem State.setKeys_err (k : Block) (rk : Vector RoundKey 16) : (s.setKeys k rk).err = s.err := rfl
@[simp] theorem State.setKeys_pending (k : Block) (rk : Vector RoundKey 16) : (s.setKeys k rk).pending = s.pending := rfl
@[simp] theorem State.setKeys_responses (k : Block) (rk : Vector RoundKey 16) : (s.setKeys k rk).responses = s.responses := rfl

/-! `setBlk` -/
@[simp] theorem State.setBlk_seed (b : Block) : (s.setBlk b).seed = s.seed := rfl
@[simp] theorem State.setBlk_tblv (b : Block) : (s.setBlk b).tblv = s.tblv := rfl
@[simp] theorem State.setBlk_tables (b : Block) : (s.setBlk b).tables = s.tables := rfl
@[simp] theorem State.setBlk_kbuf (b : Block) : (s.setBlk b).kbuf = s.kbuf := rfl
@[simp] theorem State.setBlk_klen (b : Block) : (s.setBlk b).klen = s.klen := rfl
@[simp] theorem State.setBlk_key (b : Block) : (s.setBlk b).key = s.key := rfl
@[simp] theorem State.setBlk_rk (b : Block) : (s.setBlk b).rk = s.rk := rfl
@[simp] theorem State.setBlk_rkv (b : Block) : (s.setBlk b).rkv = s.rkv := rfl
@[simp] theorem State.setBlk_blk (b : Block) : (s.setBlk b).blk = b := rfl
@[simp] theorem State.setBlk_mbuf (b : Block) : (s.setBlk b).mbuf = s.mbuf := rfl
@[simp] theorem State.setBlk_mlen (b : Block) : (s.setBlk b).mlen = s.mlen := rfl
@[simp] theorem State.setBlk_err (b : Block) : (s.setBlk b).err = s.err := rfl
@[simp] theorem State.setBlk_pending (b : Block) : (s.setBlk b).pending = s.pending := rfl
@[simp] theorem State.setBlk_responses (b : Block) : (s.setBlk b).responses = s.responses := rfl

/-! `setMbuf` -/
@[simp] theorem State.setMbuf_seed (m : Memory) : (s.setMbuf m).seed = s.seed := rfl
@[simp] theorem State.setMbuf_tblv (m : Memory) : (s.setMbuf m).tblv = s.tblv := rfl
@[simp] theorem State.setMbuf_tables (m : Memory) : (s.setMbuf m).tables = s.tables := rfl
@[simp] theorem State.setMbuf_kbuf (m : Memory) : (s.setMbuf m).kbuf = s.kbuf := rfl
@[simp] theorem State.setMbuf_klen (m : Memory) : (s.setMbuf m).klen = s.klen := rfl
@[simp] theorem State.setMbuf_key (m : Memory) : (s.setMbuf m).key = s.key := rfl
@[simp] theorem State.setMbuf_rk (m : Memory) : (s.setMbuf m).rk = s.rk := rfl
@[simp] theorem State.setMbuf_rkv (m : Memory) : (s.setMbuf m).rkv = s.rkv := rfl
@[simp] theorem State.setMbuf_blk (m : Memory) : (s.setMbuf m).blk = s.blk := rfl
@[simp] theorem State.setMbuf_mbuf (m : Memory) : (s.setMbuf m).mbuf = m := rfl
@[simp] theorem State.setMbuf_mlen (m : Memory) : (s.setMbuf m).mlen = s.mlen := rfl
@[simp] theorem State.setMbuf_err (m : Memory) : (s.setMbuf m).err = s.err := rfl
@[simp] theorem State.setMbuf_pending (m : Memory) : (s.setMbuf m).pending = s.pending := rfl
@[simp] theorem State.setMbuf_responses (m : Memory) : (s.setMbuf m).responses = s.responses := rfl

/-! `setMlen` -/
@[simp] theorem State.setMlen_seed (n : Fin (Config.msgMax + 1)) : (s.setMlen n).seed = s.seed := rfl
@[simp] theorem State.setMlen_tblv (n : Fin (Config.msgMax + 1)) : (s.setMlen n).tblv = s.tblv := rfl
@[simp] theorem State.setMlen_tables (n : Fin (Config.msgMax + 1)) : (s.setMlen n).tables = s.tables := rfl
@[simp] theorem State.setMlen_kbuf (n : Fin (Config.msgMax + 1)) : (s.setMlen n).kbuf = s.kbuf := rfl
@[simp] theorem State.setMlen_klen (n : Fin (Config.msgMax + 1)) : (s.setMlen n).klen = s.klen := rfl
@[simp] theorem State.setMlen_key (n : Fin (Config.msgMax + 1)) : (s.setMlen n).key = s.key := rfl
@[simp] theorem State.setMlen_rk (n : Fin (Config.msgMax + 1)) : (s.setMlen n).rk = s.rk := rfl
@[simp] theorem State.setMlen_rkv (n : Fin (Config.msgMax + 1)) : (s.setMlen n).rkv = s.rkv := rfl
@[simp] theorem State.setMlen_blk (n : Fin (Config.msgMax + 1)) : (s.setMlen n).blk = s.blk := rfl
@[simp] theorem State.setMlen_mbuf (n : Fin (Config.msgMax + 1)) : (s.setMlen n).mbuf = s.mbuf := rfl
@[simp] theorem State.setMlen_mlen (n : Fin (Config.msgMax + 1)) : (s.setMlen n).mlen = n := rfl
@[simp] theorem State.setMlen_err (n : Fin (Config.msgMax + 1)) : (s.setMlen n).err = s.err := rfl
@[simp] theorem State.setMlen_pending (n : Fin (Config.msgMax + 1)) : (s.setMlen n).pending = s.pending := rfl
@[simp] theorem State.setMlen_responses (n : Fin (Config.msgMax + 1)) : (s.setMlen n).responses = s.responses := rfl

/-! `setErr` -/
@[simp] theorem State.setErr_seed (c : ErrCode) : (s.setErr c).seed = s.seed := rfl
@[simp] theorem State.setErr_tblv (c : ErrCode) : (s.setErr c).tblv = s.tblv := rfl
@[simp] theorem State.setErr_tables (c : ErrCode) : (s.setErr c).tables = s.tables := rfl
@[simp] theorem State.setErr_kbuf (c : ErrCode) : (s.setErr c).kbuf = s.kbuf := rfl
@[simp] theorem State.setErr_klen (c : ErrCode) : (s.setErr c).klen = s.klen := rfl
@[simp] theorem State.setErr_key (c : ErrCode) : (s.setErr c).key = s.key := rfl
@[simp] theorem State.setErr_rk (c : ErrCode) : (s.setErr c).rk = s.rk := rfl
@[simp] theorem State.setErr_rkv (c : ErrCode) : (s.setErr c).rkv = s.rkv := rfl
@[simp] theorem State.setErr_blk (c : ErrCode) : (s.setErr c).blk = s.blk := rfl
@[simp] theorem State.setErr_mbuf (c : ErrCode) : (s.setErr c).mbuf = s.mbuf := rfl
@[simp] theorem State.setErr_mlen (c : ErrCode) : (s.setErr c).mlen = s.mlen := rfl
@[simp] theorem State.setErr_err (c : ErrCode) : (s.setErr c).err = c := rfl
@[simp] theorem State.setErr_pending (c : ErrCode) : (s.setErr c).pending = s.pending := rfl
@[simp] theorem State.setErr_responses (c : ErrCode) : (s.setErr c).responses = s.responses := rfl

/-! `setPending` -/
@[simp] theorem State.setPending_seed (l : List HostOp) : (s.setPending l).seed = s.seed := rfl
@[simp] theorem State.setPending_tblv (l : List HostOp) : (s.setPending l).tblv = s.tblv := rfl
@[simp] theorem State.setPending_tables (l : List HostOp) : (s.setPending l).tables = s.tables := rfl
@[simp] theorem State.setPending_kbuf (l : List HostOp) : (s.setPending l).kbuf = s.kbuf := rfl
@[simp] theorem State.setPending_klen (l : List HostOp) : (s.setPending l).klen = s.klen := rfl
@[simp] theorem State.setPending_key (l : List HostOp) : (s.setPending l).key = s.key := rfl
@[simp] theorem State.setPending_rk (l : List HostOp) : (s.setPending l).rk = s.rk := rfl
@[simp] theorem State.setPending_rkv (l : List HostOp) : (s.setPending l).rkv = s.rkv := rfl
@[simp] theorem State.setPending_blk (l : List HostOp) : (s.setPending l).blk = s.blk := rfl
@[simp] theorem State.setPending_mbuf (l : List HostOp) : (s.setPending l).mbuf = s.mbuf := rfl
@[simp] theorem State.setPending_mlen (l : List HostOp) : (s.setPending l).mlen = s.mlen := rfl
@[simp] theorem State.setPending_err (l : List HostOp) : (s.setPending l).err = s.err := rfl
@[simp] theorem State.setPending_pending (l : List HostOp) : (s.setPending l).pending = l := rfl
@[simp] theorem State.setPending_responses (l : List HostOp) : (s.setPending l).responses = s.responses := rfl

/-! `respond` -/
@[simp] theorem State.respond_seed (r : Resp) : (s.respond r).seed = s.seed := rfl
@[simp] theorem State.respond_tblv (r : Resp) : (s.respond r).tblv = s.tblv := rfl
@[simp] theorem State.respond_tables (r : Resp) : (s.respond r).tables = s.tables := rfl
@[simp] theorem State.respond_kbuf (r : Resp) : (s.respond r).kbuf = s.kbuf := rfl
@[simp] theorem State.respond_klen (r : Resp) : (s.respond r).klen = s.klen := rfl
@[simp] theorem State.respond_key (r : Resp) : (s.respond r).key = s.key := rfl
@[simp] theorem State.respond_rk (r : Resp) : (s.respond r).rk = s.rk := rfl
@[simp] theorem State.respond_rkv (r : Resp) : (s.respond r).rkv = s.rkv := rfl
@[simp] theorem State.respond_blk (r : Resp) : (s.respond r).blk = s.blk := rfl
@[simp] theorem State.respond_mbuf (r : Resp) : (s.respond r).mbuf = s.mbuf := rfl
@[simp] theorem State.respond_mlen (r : Resp) : (s.respond r).mlen = s.mlen := rfl
@[simp] theorem State.respond_err (r : Resp) : (s.respond r).err = s.err := rfl
@[simp] theorem State.respond_pending (r : Resp) : (s.respond r).pending = s.pending := rfl
@[simp] theorem State.respond_responses (r : Resp) : (s.respond r).responses = s.responses ++ [r] := rfl

/-! `resetEngine` -/
@[simp] theorem resetEngine_seed : (resetEngine s).seed = State.reset.seed := rfl
@[simp] theorem resetEngine_tblv : (resetEngine s).tblv = State.reset.tblv := rfl
@[simp] theorem resetEngine_tables : (resetEngine s).tables = State.reset.tables := rfl
@[simp] theorem resetEngine_kbuf : (resetEngine s).kbuf = State.reset.kbuf := rfl
@[simp] theorem resetEngine_klen : (resetEngine s).klen = State.reset.klen := rfl
@[simp] theorem resetEngine_key : (resetEngine s).key = State.reset.key := rfl
@[simp] theorem resetEngine_rk : (resetEngine s).rk = State.reset.rk := rfl
@[simp] theorem resetEngine_rkv : (resetEngine s).rkv = State.reset.rkv := rfl
@[simp] theorem resetEngine_blk : (resetEngine s).blk = State.reset.blk := rfl
@[simp] theorem resetEngine_mbuf : (resetEngine s).mbuf = State.reset.mbuf := rfl
@[simp] theorem resetEngine_mlen : (resetEngine s).mlen = State.reset.mlen := rfl
@[simp] theorem resetEngine_err : (resetEngine s).err = State.reset.err := rfl
@[simp] theorem resetEngine_pending : (resetEngine s).pending = s.pending := rfl
@[simp] theorem resetEngine_responses : (resetEngine s).responses = s.responses := rfl

/-! `raiseErr`: it touches the latch and nothing else -/

/-- What raising an error does to the latch (rule R236). -/
theorem raiseErr_err (c : ErrCode) : (raiseErr c s).err = if s.err = .ok then c else s.err := by
  unfold raiseErr; split <;> simp_all

@[simp] theorem raiseErr_seed (c : ErrCode) : (raiseErr c s).seed = s.seed := by unfold raiseErr; split <;> rfl
@[simp] theorem raiseErr_tblv (c : ErrCode) : (raiseErr c s).tblv = s.tblv := by unfold raiseErr; split <;> rfl
@[simp] theorem raiseErr_tables (c : ErrCode) : (raiseErr c s).tables = s.tables := by unfold raiseErr; split <;> rfl
@[simp] theorem raiseErr_kbuf (c : ErrCode) : (raiseErr c s).kbuf = s.kbuf := by unfold raiseErr; split <;> rfl
@[simp] theorem raiseErr_klen (c : ErrCode) : (raiseErr c s).klen = s.klen := by unfold raiseErr; split <;> rfl
@[simp] theorem raiseErr_key (c : ErrCode) : (raiseErr c s).key = s.key := by unfold raiseErr; split <;> rfl
@[simp] theorem raiseErr_rk (c : ErrCode) : (raiseErr c s).rk = s.rk := by unfold raiseErr; split <;> rfl
@[simp] theorem raiseErr_rkv (c : ErrCode) : (raiseErr c s).rkv = s.rkv := by unfold raiseErr; split <;> rfl
@[simp] theorem raiseErr_blk (c : ErrCode) : (raiseErr c s).blk = s.blk := by unfold raiseErr; split <;> rfl
@[simp] theorem raiseErr_mbuf (c : ErrCode) : (raiseErr c s).mbuf = s.mbuf := by unfold raiseErr; split <;> rfl
@[simp] theorem raiseErr_mlen (c : ErrCode) : (raiseErr c s).mlen = s.mlen := by unfold raiseErr; split <;> rfl
@[simp] theorem raiseErr_pending (c : ErrCode) : (raiseErr c s).pending = s.pending := by unfold raiseErr; split <;> rfl
@[simp] theorem raiseErr_responses (c : ErrCode) : (raiseErr c s).responses = s.responses := by unfold raiseErr; split <;> rfl

/-- Raising an error as one record update (rule R236). -/
theorem raiseErr_eq (c : ErrCode) : raiseErr c s = { s with err := if s.err = .ok then c else s.err } := by
  unfold raiseErr State.setErr; split <;> simp_all

end Sys2Proof.Machine
end

