-- ==== Sys2Proof/Laws/Exec.lean ====
section
/-! SUPPORT. What each meaning can do, said once, and what the framing loop does to every byte. -/

namespace Sys2Proof.Machine

variable {s t : State}

/-! ### The meanings -/

theorem execNop_next (h : execNop s = .next t) : t = s := by
  simpa [execNop] using h.symm

theorem execClrerr_next (h : execClrerr s = .next t) : t = s.setErr .ok := by
  simpa [execClrerr, clearErr] using h.symm

theorem execSrst_next (h : execSrst s = .next t) : t = resetEngine s := by
  simpa [execSrst] using h.symm

theorem execGen_next (h : execGen s = .next t) :
    s.tblv = true ∧ t = raiseErr .locked s ∨
      s.tblv = false ∧ t = s.setTables (generate Config.prng s.seed) := by
  unfold execGen refuse at h
  split at h <;> simp_all

theorem execKsched_next (h : execKsched s = .next t) :
    s.tblv = false ∧ t = raiseErr .notbl s ∨
      s.tblv = true ∧ s.klen = 0 ∧ t = raiseErr .key s ∨
      s.tblv = true ∧ s.klen ≠ 0 ∧ t = s.setKeys (deriveKey s.kbuf s.klen)
        (schedule (deriveKey s.kbuf s.klen) s.tables.pc1 s.tables.pc2 Config.shifts) := by
  unfold execKsched refuse at h
  split at h
  · simp_all
  · split at h <;> simp_all

theorem blockCommand_next {d : Direction} (h : blockCommand d s = .next t) :
    s.rkv = false ∧ t = raiseErr .nokey s ∨
      s.rkv = true ∧ t = s.setBlk (feistel s.tables s.blk (keysFor s.rk d)) := by
  unfold blockCommand refuse at h
  split at h <;> simp_all

theorem messageCommand_next {d : Direction} (h : messageCommand d s = .next t) :
    s.rkv = false ∧ t = raiseErr .nokey s ∨
      s.rkv = true ∧ s.mlen = 0 ∧ t = raiseErr .msg s ∨
      s.rkv = true ∧ s.mlen ≠ 0 ∧ t = s.setMbuf (crypt d s) := by
  unfold messageCommand refuse at h
  split at h
  · simp_all
  · split at h <;> simp_all

/-- A message command with round keys and a message completes. -/
theorem messageCommand_completes (d : Direction) (hr : s.rkv = true) (hm : s.mlen ≠ 0) :
    messageCommand d s = .next (s.setMbuf (crypt d s)) := by
  unfold messageCommand
  rw [if_neg (by simp [hr]), if_neg hm]

/-! ### The framing loop -/

theorem blockCount_mul (n j : Nat) : j < blockCount n ↔ 8 * j < n := by
  unfold blockCount; omega

/-- Every block of the loop keeps the canonical form of a buffer that holds the whole message. -/
theorem wf_cryptBlocks (t : Tables) (ks : List RoundKey) (n : Nat) (m : Memory) (hn : n ≤ Config.msgMax)
    (h : Memory.wf m = true) : ∀ j, j ≤ blockCount n → Memory.wf (cryptBlocks t ks n m j) = true
  | 0, _ => h
  | j + 1, hj => by
    have hlt : 8 * j < n := (blockCount_mul n j).1 hj
    refine Memory.wf_memWriteBytes _ _ _ (wf_cryptBlocks t ks n m hn h j (by omega)) _ ?_
    unfold chunkLength
    omega

theorem rising_cryptBlocks (t : Tables) (ks : List RoundKey) (n : Nat) (m : Memory) (h : Memory.Rising m) :
    ∀ j, Memory.Rising (cryptBlocks t ks n m j)
  | 0 => h
  | j + 1 => Memory.rising_memWriteBytes _ _ _ (rising_cryptBlocks t ks n m h j) _

/-- What the first `j` blocks of the loop do to every byte: the bytes of those blocks hold the transformed
chunks of the buffer the loop began with, every other byte its old value (rule R81). -/
theorem read_cryptBlocks (t : Tables) (ks : List RoundKey) (n : Nat) (m : Memory) (h : Memory.Rising m) (x : Nat) :
    ∀ j, Memory.read (cryptBlocks t ks n m j) x =
      if x < 8 * j ∧ x < n then
        blockByte (feistel t (memReadPadded m (8 * (x / 8)) (chunkLength n (x / 8))) ks) (x % 8)
      else Memory.read m x
  | 0 => by simp [cryptBlocks]
  | j + 1 => by
    rw [cryptBlocks, cryptBlock, Memory.read_memWriteBytes _ _ _ _ (rising_cryptBlocks t ks n m h j)]
    by_cases hx : 8 * j ≤ x ∧ x < 8 * j + chunkLength n j
    · have hc : chunkLength n j ≤ 8 ∧ (chunkLength n j ≤ n - 8 * j) := by unfold chunkLength; omega
      have hj : x / 8 = j := by omega
      rw [if_pos hx, if_pos (by omega), hj]
      have hread : memReadPadded (cryptBlocks t ks n m j) (8 * j) (chunkLength n j) =
          memReadPadded m (8 * j) (chunkLength n j) := by
        refine Memory.memReadPadded_congr _ _ _ _ fun k _ => ?_
        rw [read_cryptBlocks t ks n m h (8 * j + k) j, if_neg (by omega)]
      rw [hread]
      congr 1
      omega
    · rw [if_neg hx, read_cryptBlocks t ks n m h x j]
      unfold chunkLength at hx
      congr 1
      simp only [eq_iff_iff]
      omega

end Sys2Proof.Machine
end

