-- ==== Sys2Proof/Laws/Generator.lean ====
section
/-! SUPPORT. The laws of the generator `LCG32`, of `shuffle` and of repeated draws. -/

namespace Sys2Proof.Machine

open Sys2Proof.Config (Prng)

/-- Rule R112 in numbers: the next state of `LCG32`. -/
theorem lcgNext_toNat (s : Word) : (lcgNext s).toNat = (1664525 * s.toNat + 1013904223) % 2 ^ 32 := by
  have sum (c d : Word) : (c * s + d).toNat = (c.toNat * s.toNat + d.toNat) % 2 ^ 32 := by
    rw [BitVec.toNat_add, BitVec.toNat_mul, Nat.mod_add_mod]
  exact sum 1664525#32 1013904223#32

/-- A swap permutes. -/
theorem swapIfInBounds_perm {α : Type} {n : Nat} (a : Vector α n) (i j : Nat) :
    (a.swapIfInBounds i j).toList.Perm a.toList := by
  have : (a.toArray.swapIfInBounds i j).Perm a.toArray := by
    unfold Array.swapIfInBounds
    split
    · split
      · exact Array.swap_perm _ _
      · exact .rfl
    · exact .rfl
  exact Array.perm_iff_toList_perm.1 this

/-- A swap, entry by entry. -/
theorem swapIfInBounds_getElem? {α : Type} {n : Nat} (a : Vector α n) (i j k : Nat) (hi : i < n) (hj : j < n) :
    (a.swapIfInBounds i j)[k]? = if k = i then a[j]? else if k = j then a[i]? else a[k]? := by
  have : a.swapIfInBounds i j = a.swap i j hi hj := by
    apply Vector.toArray_inj.1
    simp [Array.swapIfInBounds, hi, hj]
  rw [this, Vector.getElem?_swap]
  by_cases h1 : k = j <;> by_cases h2 : k = i <;> simp_all [eq_comm]

theorem shuffleDown_perm {α : Type} {n : Nat} (p : Prng) : ∀ (i : Nat) (g : p.St) (a : Vector α n),
    (shuffleDown p i g a).2.toList.Perm a.toList
  | 0, _, _ => .rfl
  | i + 1, _, a => (shuffleDown_perm p i _ _).trans (swapIfInBounds_perm a _ _)

/-- Rule R111: `shuffle` gives a permutation of its input, for every generator. -/
theorem shuffle_perm {α : Type} {n : Nat} (p : Prng) (g : p.St) (a : Vector α n) :
    (shuffle p g a).2.toList.Perm a.toList := shuffleDown_perm p _ g a

/-- The entries of the ascending list, where they fit the entry width. -/
theorem entries_oneUpTo (w n : Nat) (h : n < 2 ^ w) : entries (oneUpTo w n) = List.range' 1 n := by
  unfold entries oneUpTo
  refine List.ext_getElem (by simp) fun i h1 h2 => ?_
  have : i < n := by simpa using h1
  simp [Nat.mod_eq_of_lt (show i + 1 < 2 ^ w by omega)]
  omega

theorem entries_zeroUpTo (w n : Nat) (h : n ≤ 2 ^ w) : entries (zeroUpTo w n) = List.range n := by
  unfold entries zeroUpTo
  refine List.ext_getElem (by simp) fun i h1 h2 => ?_
  have : i < n := by simpa using h1
  simp [Nat.mod_eq_of_lt (show i < 2 ^ w by omega)]

/-- The entries of a shuffled table. -/
theorem entries_shuffle {w n : Nat} (p : Prng) (g : p.St) (a : Vector (BitVec w) n) :
    (entries (shuffle p g a).2).Perm (entries a) := (shuffle_perm p g a).map _

/-- What every single draw has, every one of many draws has. -/
theorem drawMany_get {σ β : Type} (f : σ → σ × β) (P : β → Prop) (hf : ∀ g, P (f g).2) :
    ∀ (n : Nat) (g : σ) (i : Fin n), P ((drawMany f n g).2.get i)
  | n + 1, g, i => by
    unfold drawMany
    simp only [Vector.get_eq_getElem, Vector.getElem_push]
    split
    · next h => exact drawMany_get f P hf n g ⟨i, h⟩
    · exact hf _

/-- Many draws along a known chain of states: `h (k + i)` before draw `i`, which makes `v i`. -/
theorem drawMany_chain {σ β : Type} (f : σ → σ × β) (h : Nat → σ) (k : Nat) (v : Nat → β) :
    ∀ n, (∀ i, i < n → f (h (k + i)) = (h (k + i + 1), v i)) →
      drawMany f n (h k) = (h (k + n), Vector.ofFn fun i : Fin n => v i.val)
  | 0, _ => by simp [drawMany]
  | n + 1, hf => by
    unfold drawMany
    rw [drawMany_chain f h k v n fun i hi => hf i (by omega)]
    simp only [hf n (by omega)]
    refine Prod.ext rfl (Vector.ext fun i hi => ?_)
    simp only [Vector.getElem_push, Vector.getElem_ofFn]
    split
    · rfl
    · congr 1; omega

/-- The entries of two tables joined and cut. -/
theorem entries_append_cut {w m n k : Nat} (a : Vector (BitVec w) m) (b : Vector (BitVec w) n) (h : k ≤ m + n) :
    entries (Vector.ofFn fun i : Fin k => (a ++ b)[i.val]) = (entries a ++ entries b).take k := by
  have hk : (entries a ++ entries b).take k = (entries (a ++ b)).take k := by
    simp [entries, Vector.toList_append]
  rw [hk]
  refine List.ext_getElem (by simp [entries]; omega) fun i h1 h2 => ?_
  rw [List.getElem_take]
  simp only [entries, List.getElem_map, Vector.getElem_toList, Vector.getElem_ofFn]

end Sys2Proof.Machine
end

