-- ==== Sys2Proof/Laws/PerInstr.lean ====
section
/-! SUPPORT. Facts about every command as syntax, one lemma per command. -/

namespace Sys2Proof.Laws.EncodesItsFields

/-- The word of a command is cut back into the fields it was made of, and they pass the three checks. -/
def Statement (i : Instr) : Prop := RawCommand.ofWord (encode i) = i.fields ∧ i.wellFormed = true

theorem nop : Statement .nop := by unfold Statement; decide

theorem gen : Statement .gen := by unfold Statement; decide

theorem ksched : Statement .ksched := by unfold Statement; decide

theorem clrerr : Statement .clrerr := by unfold Statement; decide

theorem blkenc : Statement .blkenc := by unfold Statement; decide

theorem blkdec : Statement .blkdec := by unfold Statement; decide

theorem msgenc : Statement .msgenc := by unfold Statement; decide

theorem msgdec : Statement .msgdec := by unfold Statement; decide

theorem srst : Statement .srst := by unfold Statement; decide

end Sys2Proof.Laws.EncodesItsFields
end

