-- ==== Sys2Proof/Laws/Step.lean ====
section
/-! SUPPORT. Where the port sends an access, and what one step can do, said once. -/

namespace Sys2Proof.Machine

/-! ### Locations -/

theorem wordIndex_eq_some {base count : Nat} {off : BitVec 16} {k : Fin count} :
    wordIndex base count off = some k ↔ off.toNat = base + 4 * k.val := by
  unfold wordIndex
  constructor
  · intro h
    split at h
    · next hc => rw [← Option.some.inj h]; simp only; omega
    · cases h
  · intro h
    have hk := k.isLt
    rw [dif_pos (by omega)]
    congr 1
    apply Fin.ext
    simp only
    omega

theorem wordIndex_eq_none {base count : Nat} {off : BitVec 16} :
    wordIndex base count off = none ↔
      ¬ (base ≤ off.toNat ∧ (off.toNat - base) % 4 = 0 ∧ off.toNat < base + 4 * count) := by
  unfold wordIndex
  split
  · next h => simp only [reduceCtorEq, false_iff, not_not]; omega
  · next h => simp only [true_iff]; omega

theorem byteIndex_eq_some {base count : Nat} {off : BitVec 16} {k : Fin count} :
    byteIndex base count off = some k ↔ off.toNat = base + k.val := by
  unfold byteIndex
  constructor
  · intro h
    split at h
    · next hc => rw [← Option.some.inj h]; simp only; omega
    · cases h
  · intro h
    have hk := k.isLt
    rw [dif_pos (by omega)]
    congr 1
    apply Fin.ext
    simp only
    omega

theorem byteIndex_eq_none {base count : Nat} {off : BitVec 16} :
    byteIndex base count off = none ↔ ¬ (base ≤ off.toNat ∧ off.toNat < base + count) := by
  unfold byteIndex
  split
  · next h => simp only [reduceCtorEq, false_iff, not_not]; omega
  · next h => simp only [true_iff]; omega

/-- The offset of a word location (rules R34 and R66). -/
def WordLoc.offset : WordLoc → Nat
  | .id => 0x0000
  | .cmd => 0x0004
  | .status => 0x0008
  | .seed => 0x000C
  | .klen => 0x0010
  | .mlen => 0x0014
  | .blkHi => 0x0018
  | .blkLo => 0x001C
  | .keyHi => 0x0020
  | .keyLo => 0x0024
  | .cap => 0x0028
  | .pc1 k => 0x1000 + 4 * k.val
  | .pc2 k => 0x1100 + 4 * k.val
  | .shifts k => 0x1200 + 4 * k.val
  | .e k => 0x1300 + 4 * k.val
  | .p k => 0x1400 + 4 * k.val
  | .ip k => 0x1500 + 4 * k.val
  | .ipinv k => 0x1600 + 4 * k.val
  | .s k => 0x1800 + 4 * k.val
  | .rk k => 0x2000 + 4 * k.val

/-- The offset of a byte location (rule R66). -/
def ByteLoc.offset : ByteLoc → Nat
  | .kbuf i => 0x0040 + i.val
  | .mbuf i => 0x4000 + i.val

theorem registerAt_offset : ∀ k : Fin 11, (registerAt k).offset = 4 * k.val := by decide

/-- The location found at an offset is the one that stands there. -/
theorem offset_of_locateWord {off : BitVec 16} {l : WordLoc} (h : locateWord off = some l) :
    off.toNat = l.offset := by
  simp only [locateWord, Option.orElse_eq_some, Option.map_eq_some_iff,
    Option.map_eq_none_iff, wordIndex_eq_some] at h
  obtain ⟨k, hk, rfl⟩ | ⟨-, ⟨k, hk, rfl⟩ | ⟨-, ⟨k, hk, rfl⟩ | ⟨-, ⟨k, hk, rfl⟩ | ⟨-, ⟨k, hk, rfl⟩ |
    ⟨-, ⟨k, hk, rfl⟩ | ⟨-, ⟨k, hk, rfl⟩ | ⟨-, ⟨k, hk, rfl⟩ | ⟨-, ⟨k, hk, rfl⟩ | ⟨-, k, hk, rfl⟩⟩⟩⟩⟩⟩⟩⟩⟩ := h
  · rw [registerAt_offset]; omega
  all_goals exact hk

theorem WordLoc.offset_lt (l : WordLoc) : l.offset < 0x2080 := by
  cases l <;> simp only [WordLoc.offset] <;> omega

/-- Two locations never stand at one offset. -/
theorem WordLoc.eq_of_offset {l l' : WordLoc} (h : l.offset = l'.offset) : l = l' := by
  cases l <;> cases l' <;> simp only [WordLoc.offset] at h <;>
    first | rfl | (congr 1; apply Fin.ext; omega) | omega

/-- Every location is found at its offset. -/
theorem locateWord_offset (l : WordLoc) : locateWord (BitVec.ofNat 16 l.offset) = some l := by
  have hlt := l.offset_lt
  cases hl : locateWord (BitVec.ofNat 16 l.offset) with
  | some l' =>
    have := offset_of_locateWord hl
    rw [BitVec.toNat_ofNat, Nat.mod_eq_of_lt (by omega)] at this
    rw [WordLoc.eq_of_offset this]
  | none =>
    exfalso
    simp only [locateWord, Option.orElse_eq_none,
      Option.map_eq_none_iff, wordIndex_eq_none, BitVec.toNat_ofNat,
      Nat.mod_eq_of_lt (show l.offset < 2 ^ 16 by omega)] at hl
    cases l <;> simp only [WordLoc.offset] at hl <;> first | omega | simp at hl

/-- A word location is found exactly at its offset. -/
theorem locateWord_eq_some {off : BitVec 16} {l : WordLoc} : locateWord off = some l ↔ off.toNat = l.offset := by
  refine ⟨offset_of_locateWord, fun h => ?_⟩
  rw [← locateWord_offset l, ← h, BitVec.ofNat_toNat, BitVec.setWidth_eq]

/-- A byte location is found exactly at its offset. -/
theorem locateByte_eq_some {off : BitVec 16} {l : ByteLoc} : locateByte off = some l ↔ off.toNat = l.offset := by
  simp only [locateByte, Option.orElse_eq_some, Option.map_eq_some_iff,
    Option.map_eq_none_iff, byteIndex_eq_some, byteIndex_eq_none]
  cases l with
  | kbuf i =>
    simp only [ByteLoc.kbuf.injEq, exists_eq_right, ByteLoc.offset, reduceCtorEq, and_false,
      exists_false, or_false]
  | mbuf i =>
    simp only [ByteLoc.mbuf.injEq, exists_eq_right, ByteLoc.offset, reduceCtorEq, and_false,
      exists_false, false_or]
    omega

/-! ### One operation and one step -/

/-- What handling one operation can do: from `s`, with the operation already taken off the list, the engine
goes to `u` and the response is `r`. -/
inductive Handled (s : State) : HostOp → State → Resp → Prop
  | read (off : BitVec 16) (w : Width) : Handled s (.read off w) s (readResponse s off w)
  | rejected (off : BitVec 16) (d : BusData) (h : busWrite s off d = none) :
      Handled s (.write off d) s .busError
  | byte (off : BitVec 16) (v : Byte) (l : ByteLoc) (h : off.toNat = l.offset) :
      Handled s (.write off (.b8 v)) (writeByte s v l) .ok
  | seed (v : Word) : Handled s (.write 0x000C#16 (.b32 v)) (writeSeed s v) .ok
  | klen (v : Word) : Handled s (.write 0x0010#16 (.b32 v)) (writeKlen s v) .ok
  | mlen (v : Word) : Handled s (.write 0x0014#16 (.b32 v)) (writeMlen s v) .ok
  | blkHi (v : Word) : Handled s (.write 0x0018#16 (.b32 v)) (writeBlkHi s v) .ok
  | blkLo (v : Word) : Handled s (.write 0x001C#16 (.b32 v)) (writeBlkLo s v) .ok
  | illegal (w : Word) (e : DecodeError) (h : decodeWord w = .error e) :
      Handled s (.write 0x0004#16 (.b32 w)) (raiseErr .illcmd s) .ok
  | command (w : Word) (i : Instr) (u : State) (h : decodeWord w = .ok i) (hu : exec i s = .next u) :
      Handled s (.write 0x0004#16 (.b32 w)) u .ok
  | reset : Handled s .hardReset (resetEngine s) .ok

theorem eq_ofNat_of_toNat {off : BitVec 16} {n : Nat} (h : off.toNat = n) : off = BitVec.ofNat 16 n := by
  rw [← h, BitVec.ofNat_toNat, BitVec.setWidth_eq]

theorem thenRespond_next {r : Resp} {o : Host.Outcome State Fault Refusal} {t : State}
    (h : thenRespond r o = .next t) : ∃ u, o = .next u ∧ t = u.respond r := by
  cases o with
  | next u => exact ⟨u, rfl, by simpa [thenRespond] using h.symm⟩
  | fault f => cases f
  | refused e => simp [thenRespond] at h

/-- What handling one operation can do. -/
theorem perform_cases {s t : State} {op : HostOp} (h : perform s op = .next t) :
    ∃ u r, Handled s op u r ∧ t = u.respond r := by
  cases op with
  | read off w => exact ⟨s, _, .read off w, by simpa [perform] using h.symm⟩
  | hardReset => exact ⟨_, _, .reset, by simpa [perform] using h.symm⟩
  | write off d =>
    simp only [perform] at h
    cases hb : busWrite s off d with
    | none =>
      rw [hb] at h
      exact ⟨s, _, .rejected off d hb, by simpa using h.symm⟩
    | some o =>
      rw [hb] at h
      obtain ⟨u, rfl, rfl⟩ := thenRespond_next h
      refine ⟨u, .ok, ?_, rfl⟩
      cases d with
      | b16 v => simp [busWrite] at hb
      | b8 v =>
        simp only [busWrite, Option.map_eq_some_iff] at hb
        obtain ⟨l, hl, hu⟩ := hb
        obtain rfl : writeByte s v l = u := by simpa using hu
        exact .byte off v l (locateByte_eq_some.1 hl)
      | b32 v =>
        simp only [busWrite, Option.bind_eq_some_iff] at hb
        obtain ⟨l, hl, hu⟩ := hb
        have hoff := eq_ofNat_of_toNat (locateWord_eq_some.1 hl)
        cases l <;> simp only [writeWord, reduceCtorEq, Option.some.injEq, Host.Outcome.next.injEq] at hu <;>
          first
          | (subst hu hoff; constructor)
          | skip
        subst hoff
        unfold runCommand at hu
        split at hu
        · next i hi => exact .command v i u hi hu
        · next e he =>
          obtain rfl : raiseErr .illcmd s = u := by simpa [refuse] using hu
          exact .illegal v e he

/-- What one step can do. -/
theorem step_cases {s t : State} (h : step s = .next t) :
    s.pending = [] ∧ t = s ∨
      ∃ op rest u r, s.pending = op :: rest ∧ Handled (s.setPending rest) op u r ∧ t = u.respond r := by
  unfold step advance at h
  split at h
  · next hp => exact .inl ⟨hp, by simpa using h.symm⟩
  · next op rest hp =>
    obtain ⟨u, r, hu, rfl⟩ := perform_cases h
    exact .inr ⟨op, rest, u, r, hp, hu, rfl⟩

/-- The step takes the next operation off the list and handles it. -/
theorem step_pending {s : State} {op : HostOp} {rest : List HostOp} (h : s.pending = op :: rest) :
    step s = perform (s.setPending rest) op := by
  unfold step advance; rw [h]

/-- Handling an operation leaves the two ends of the port alone; the step takes the operation and gives the
response. -/
theorem Handled.port {s u : State} {op : HostOp} {r : Resp} (h : Handled s op u r) :
    u.pending = s.pending ∧ u.responses = s.responses := by
  cases h with
  | byte off v l hl => cases l <;> exact ⟨rfl, rfl⟩
  | seed v => unfold writeSeed; split <;> simp
  | mlen v => unfold writeMlen; split <;> simp
  | illegal => simp
  | command w i u hd hu =>
    cases i
    · rw [execNop_next hu]; exact ⟨rfl, rfl⟩
    · rcases execGen_next hu with ⟨-, rfl⟩ | ⟨-, rfl⟩ <;> simp
    · rcases execKsched_next hu with ⟨-, rfl⟩ | ⟨-, -, rfl⟩ | ⟨-, -, rfl⟩ <;> simp
    · rw [execClrerr_next hu]; exact ⟨rfl, rfl⟩
    · rcases blockCommand_next hu with ⟨-, rfl⟩ | ⟨-, rfl⟩ <;> simp
    · rcases blockCommand_next hu with ⟨-, rfl⟩ | ⟨-, rfl⟩ <;> simp
    · rcases messageCommand_next hu with ⟨-, rfl⟩ | ⟨-, -, rfl⟩ | ⟨-, -, rfl⟩ <;> simp
    · rcases messageCommand_next hu with ⟨-, rfl⟩ | ⟨-, -, rfl⟩ | ⟨-, -, rfl⟩ <;> simp
    · rw [execSrst_next hu]; exact ⟨rfl, rfl⟩
  | _ => exact ⟨rfl, rfl⟩

/-! ### Runs -/

/-- A run begins with one step. -/
theorem run_succ {n : Nat} {s u : State} (h : step s = .next u) :
    Sys2Proof.core.run (n + 1) s = Sys2Proof.core.run n u := by
  have h' : Sys2Proof.core.step s = .next u := h
  simp [Host.Core.run, h']

end Sys2Proof.Machine
end

