-- ==== Sys2Proof/Laws/Script.lean ====
section
/-! SUPPORT. Running a list of host operations: what a script answers and where it leaves the engine, put
together from its lines. -/

namespace Sys2Proof.Machine.Script

theorem steps_zero (s : State) : steps 0 s = .next s := rfl

theorem steps_succ {n : Nat} {s t : State} (h : step s = .next t) : steps (n + 1) s = steps n t := run_succ h

/-- Steps after steps that end in a state. -/
theorem steps_add {m n : Nat} {s t : State} (h : steps m s = .next t) : steps (m + n) s = steps n t := by
  induction m generalizing s with
  | zero => rw [steps_zero] at h; rw [Nat.zero_add, Host.Outcome.next.inj h]
  | succ m ih =>
    cases hs : step s with
    | next u => rw [steps_succ hs] at h; rw [Nat.succ_add, steps_succ hs, ih h]
    | fault f => cases f
    | refused e =>
      have : steps (m + 1) s = .refused e := by
        have hs' : Sys2Proof.core.step s = .refused e := hs
        simp only [steps, Host.Core.run, hs']
        rfl
      rw [this] at h; cases h

/-- The operations `ops`, issued from the engine of `s`, are answered by `rs` and leave the engine of `u`,
whatever is pending behind them and whatever was answered before. -/
def Answers (ops : List HostOp) (s u : State) (rs : List Resp) : Prop :=
  ∀ rest given, steps ops.length { s with pending := ops ++ rest, responses := given } =
    .next { u with pending := rest, responses := given ++ rs }

theorem Answers.nil (s : State) : Answers [] s s [] := fun rest given => by
  rw [List.length_nil, List.nil_append, List.append_nil, steps_zero]

/-- One operation before others. -/
theorem Answers.cons {op : HostOp} {ops : List HostOp} {s u v : State} {r : Resp} {rs : List Resp}
    (h : ∀ rest given, step { s with pending := op :: rest, responses := given } =
      .next { u with pending := rest, responses := given ++ [r] })
    (hs : Answers ops u v rs) : Answers (op :: ops) s v (r :: rs) := fun rest given => by
  rw [List.length_cons, List.cons_append, steps_succ (h (ops ++ rest) given), hs rest (given ++ [r]),
    List.append_assoc, List.singleton_append]

/-- One script after another. -/
theorem Answers.append {l l' : List HostOp} {s u v : State} {rs rs' : List Resp}
    (h : Answers l s u rs) (h' : Answers l' u v rs') : Answers (l ++ l') s v (rs ++ rs') := fun rest given => by
  rw [List.length_append, List.append_assoc, steps_add (h (l' ++ rest) given), h' rest (given ++ rs),
    List.append_assoc]

/-- One operation, from what `perform` makes of it. -/
theorem Answers.one {op : HostOp} {s u : State} {r : Resp}
    (h : ∀ rest given, perform { s with pending := rest, responses := given } op =
      .next { u with pending := rest, responses := given ++ [r] }) : Answers [op] s u [r] :=
  Answers.cons (fun rest given => by rw [step_pending (rest := rest) rfl]; exact h rest given) (Answers.nil u)

/-- The run of a script that is known line by line. -/
theorem Answers.run_eq {ops : List HostOp} {s u : State} {rs : List Resp} (h : Answers ops s u rs) :
    run ops s = .next { u with pending := [], responses := rs } := by
  have := h [] []
  rw [List.append_nil, List.nil_append] at this
  exact this

/-! ### The buffers -/

theorem locateByte_ofNat {n : Nat} (l : ByteLoc) (h : n = l.offset) (hn : n < 2 ^ 16) :
    locateByte (BitVec.ofNat 16 n) = some l := by
  rw [locateByte_eq_some, BitVec.toNat_ofNat, Nat.mod_eq_of_lt hn, h]

/-- `R8 MBUF+i`. -/
theorem answers_r8 (s : State) (i : Nat) (h : i < Config.msgMax) :
    Answers [r8 (BitVec.ofNat 16 (0x4000 + i))] s s [.byte (Memory.read s.mbuf i)] :=
  Answers.one fun rest given => by
    have : 0x4000 + i < 2 ^ 16 := by unfold Config.msgMax at h; omega
    simp only [r8, perform, readResponse, locateByte_ofNat (n := 0x4000 + i) (.mbuf ⟨i, h⟩) rfl this]
    rfl

/-- `W8 KBUF+i, b`. -/
theorem answers_w8_kbuf (s : State) (i : Nat) (h : i < 8) (b : Byte) :
    Answers [w8 (BitVec.ofNat 16 (0x0040 + i)) b] s { s with kbuf := s.kbuf.set i b } [.ok] :=
  Answers.one fun rest given => by
    simp only [w8, perform, busWrite, locateByte_ofNat (n := 0x0040 + i) (.kbuf ⟨i, h⟩) rfl (by omega), Option.map_some]
    rfl

/-- `W8 MBUF+i, b`. -/
theorem answers_w8_mbuf (s : State) (i : Nat) (h : i < Config.msgMax) (b : Byte) :
    Answers [w8 (BitVec.ofNat 16 (0x4000 + i)) b] s { s with mbuf := Memory.write s.mbuf i b } [.ok] :=
  Answers.one fun rest given => by
    have : 0x4000 + i < 2 ^ 16 := by unfold Config.msgMax at h; omega
    simp only [w8, perform, busWrite, locateByte_ofNat (n := 0x4000 + i) (.mbuf ⟨i, h⟩) rfl this, Option.map_some]
    rfl

/-- `GETMSG n` within the buffer reads its first `n` bytes and changes nothing. -/
theorem answers_getMsg (s : State) : ∀ n, n ≤ Config.msgMax →
    Answers (getMsg n) s s ((List.range n).map fun i => .byte (Memory.read s.mbuf i))
  | 0, _ => Answers.nil s
  | n + 1, h => by
    unfold getMsg
    rw [List.range_succ, List.map_append, List.map_append]
    refine (answers_getMsg s n (by omega)).append ?_
    rw [List.map_singleton, List.map_singleton, ← BitVec.ofNat_add]
    exact answers_r8 s n h

/-- `W8` of bytes into the key buffer from byte `i` on. -/
theorem answers_writeBytes_kbuf : ∀ (bs : List Byte) (s : State) (i : Nat), i + bs.length ≤ 8 →
    ∃ kb : Vector Byte 8,
      Answers (writeBytes (BitVec.ofNat 16 (0x0040 + i)) bs) s { s with kbuf := kb }
        (List.replicate bs.length .ok) ∧
      ∀ (j : Nat) (_ : j < 8),
        kb[j] = if i ≤ j ∧ j < i + bs.length then bs.getD (j - i) 0#8 else s.kbuf[j]
  | [], s, i, _ => ⟨s.kbuf, Answers.nil s, fun j hj => by simp⟩
  | b :: bs, s, i, h => by
    simp only [List.length_cons] at h
    obtain ⟨kb, ha, hk⟩ := answers_writeBytes_kbuf bs { s with kbuf := s.kbuf.set i b } (i + 1) (by omega)
    refine ⟨kb, ?_, fun j hj => ?_⟩
    · rw [writeBytes, ← BitVec.ofNat_add]
      exact (answers_w8_kbuf s i (by omega) b).append ha
    · rw [hk j hj, List.length_cons]
      by_cases e : j = i
      · subst e; simp
      · by_cases c : i + 1 ≤ j ∧ j < i + 1 + bs.length
        · rw [if_pos c, if_pos (by omega), show j - i = (j - (i + 1)) + 1 by omega, List.getD_cons_succ]
        · rw [if_neg c, if_neg (by omega)]; simp [Ne.symm e]

/-- `W8` of bytes into the message buffer from byte `i` on. -/
theorem answers_writeBytes_mbuf : ∀ (bs : List Byte) (s : State) (i : Nat), i + bs.length ≤ Config.msgMax →
    Memory.wf s.mbuf = true → ∃ m : Memory,
      Answers (writeBytes (BitVec.ofNat 16 (0x4000 + i)) bs) s { s with mbuf := m }
        (List.replicate bs.length .ok) ∧ Memory.wf m = true ∧
      ∀ j, Memory.read m j = if i ≤ j ∧ j < i + bs.length then bs.getD (j - i) 0#8 else Memory.read s.mbuf j
  | [], s, i, _, hw => ⟨s.mbuf, Answers.nil s, hw, fun j => by simp⟩
  | b :: bs, s, i, h, hw => by
    simp only [List.length_cons] at h
    have rising := ((Memory.wf_iff _).1 hw).1
    obtain ⟨m, ha, hm, hr⟩ := answers_writeBytes_mbuf bs { s with mbuf := Memory.write s.mbuf i b } (i + 1)
      (by omega) (Memory.wf_write s.mbuf i b (by omega) hw)
    refine ⟨m, ?_, hm, fun j => ?_⟩
    · rw [writeBytes, ← BitVec.ofNat_add]
      exact (answers_w8_mbuf s i (by omega) b).append ha
    · rw [hr j, List.length_cons]
      by_cases e : j = i
      · subst e; simp [Memory.read_write _ _ _ _ rising]
      · by_cases c : i + 1 ≤ j ∧ j < i + 1 + bs.length
        · rw [if_pos c, if_pos (by omega), show j - i = (j - (i + 1)) + 1 by omega, List.getD_cons_succ]
        · rw [if_neg c, if_neg (by omega), Memory.read_write _ _ _ _ rising, if_neg (Ne.symm e)]

/-! ### Results -/

/-- Accepted 1-byte reads give the string of their bytes. -/
theorem bytesRead_map (bs : List Byte) : bytesRead (bs.map .byte) = some bs := by
  induction bs with
  | nil => rfl
  | cons b bs ih => simp [bytesRead, ih]

/-- The number that two words read make. -/
theorem blockRead_toNat (hi lo : Word) :
    (blockRead [.word hi, .word lo]).map BitVec.toNat = some (hi.toNat * 2 ^ 32 + lo.toNat) := by
  have := lo.isLt
  simp only [blockRead, Option.map_some, BitVec.toNat_append, Option.some.injEq]
  rw [← Nat.shiftLeft_add_eq_or_of_lt this, Nat.shiftLeft_eq]

end Sys2Proof.Machine.Script
end

