-- ==== Sys2Proof/Tests/Slice0.lean ====
section
/-! SUPPORT. The model's own tests: ill-formed words, command words written out, vectors of
spec/95_test_vectors.md (named V-... as there), and for every statement with hypotheses a witness that meets
them. Every expected value is the spec's. -/

namespace Sys2Proof.Tests

-- one theorem after another: each kernel evaluation would hold a thread
set_option Elab.async false

open Sys2Proof.Machine Sys2Proof.Statements

/-! ### Small states -/

/-- The table set `T_id` of spec/95_test_vectors.md, section 2.0. -/
def tId : Tables where
  pc1 := Vector.ofFn fun i => BitVec.ofNat 6 (i.val + 1)
  pc2 := Vector.ofFn fun i => BitVec.ofNat 6 (i.val + 1)
  e := Vector.ofFn fun i => BitVec.ofNat 6 (i.val % 32 + 1)
  s := Vector.replicate 8 (Vector.replicate 4 (Vector.ofFn fun c => BitVec.ofNat 4 c.val))
  p := Vector.ofFn fun i => BitVec.ofNat 6 (i.val + 1)
  ip := Vector.replicate 64 0#7
  ipinv := Vector.replicate 64 0#7

/-- The table set `T_aff` of spec/95_test_vectors.md, section 2.0. -/
def tAff : Tables where
  pc1 := Vector.ofFn fun i => BitVec.ofNat 6 (56 - i.val)
  pc2 := Vector.ofFn fun i => BitVec.ofNat 6 (5 * (i.val + 1) % 56 + 1)
  e := Vector.ofFn fun i => BitVec.ofNat 6 (7 * i.val % 32 + 1)
  s := Vector.ofFn fun b => Vector.ofFn fun r => Vector.ofFn fun c =>
    BitVec.ofNat 4 (c.val * (2 * r.val + 1) + b.val)
  p := Vector.ofFn fun i => BitVec.ofNat 6 ((11 * i.val + 5) % 32 + 1)
  ip := Vector.replicate 64 0#7
  ipinv := Vector.replicate 64 0#7

/-- The key "mojklucz" and the block "Message!" of the spec's vectors. -/
def mojklucz : Block := 0x6D6F6A6B6C75637A#64
def message : Block := 0x4D65737361676521#64

/-- Reset, with a table set. -/
def tabled (t : Tables) : State := { State.reset with tables := t, tblv := true }

/-- A table set, and the round keys of a key. -/
def keyed (t : Tables) (k : Block) : State :=
  { tabled t with key := k, rk := schedule k t.pc1 t.pc2 Config.shifts, rkv := true }

/-- The bytes in the message buffer from its start, with their number in `MLEN`. -/
def withMessage (s : State) (n : Fin 257) (bytes : List Byte) : State :=
  { s with mlen := n, mbuf := (bytes.zipIdx.map fun b => (b.2, b.1)) }

/-- The state `GEN` leaves for seed 42. -/
def generated : State := { State.reset with seed := 42#32, tables := generate Config.prng 42#32, tblv := true }

/-- The state with one pending operation. -/
def issue (s : State) (op : HostOp) : State := { s with pending := [op] }

/-- What one operation answers. -/
def answer (s : State) (op : HostOp) : Option Resp :=
  match step (issue s op) with
  | .next t => t.responses.getLast?
  | .fault _ | .refused _ => none

/-- A field of the state one command word leaves. -/
def afterWord {α : Type} (s : State) (w : Word) (f : State → α) : Option α :=
  match step (issue s (.write 0x0004#16 (.b32 w))) with
  | .next t => some (f t)
  | .fault _ | .refused _ => none

/-! ### Words -/

/-- Each check of WellFormed refuses a word of its own and passes the two others. -/
theorem test_wellFormed_refuses :
    (let r : RawCommand := ⟨1#23, 0#1, 0x10#8⟩; !r.reservedOk && r.opcodeOk && r.directionOk && !r.wellFormed) ∧
    (let r : RawCommand := ⟨0#23, 0#1, 0xFE#8⟩; r.reservedOk && !r.opcodeOk && r.directionOk && !r.wellFormed) ∧
    (let r : RawCommand := ⟨0#23, 1#1, 0xFF#8⟩; r.reservedOk && r.opcodeOk && !r.directionOk && !r.wellFormed) := by
  decide

/-- The fields of rule R93 written out, `reserved ++ dir ++ opc`, for all nine commands. -/
theorem test_decode_written_out :
    [0b00000000000000000000000#23 ++ 0b0#1 ++ 0b00000000#8, 0b00000000000000000000000#23 ++ 0b0#1 ++ 0b00000001#8,
      0b00000000000000000000000#23 ++ 0b0#1 ++ 0b00000010#8, 0b00000000000000000000000#23 ++ 0b0#1 ++ 0b00000011#8,
      0b00000000000000000000000#23 ++ 0b0#1 ++ 0b00010000#8, 0b00000000000000000000000#23 ++ 0b1#1 ++ 0b00010000#8,
      0b00000000000000000000000#23 ++ 0b0#1 ++ 0b00010001#8, 0b00000000000000000000000#23 ++ 0b1#1 ++ 0b00010001#8,
      0b00000000000000000000000#23 ++ 0b0#1 ++ 0b11111111#8].map (fun w => (decodeWord w).toOption) =
    [some .nop, some .gen, some .ksched, some .clrerr, some .blkenc, some .blkdec, some .msgenc, some .msgdec,
      some .srst] := by decide

/-- The illegal words of V-CM8 to V-CM12. -/
theorem test_decode_illegal :
    [0x00000101#32, 0x00000004#32, 0x80000001#32, 0x00000210#32, 0x000000FE#32].map decodeWord =
      [.error .directionOnFormatZ, .error .unassignedOpcode, .error .reservedBits, .error .reservedBits,
        .error .unassignedOpcode] := by decide

/-- No two rows of the opcode map select on the same fields. -/
theorem test_opcodeMap_distinct : opcodeMap.Pairwise fun a b => (a.dir, a.opc) ≠ (b.dir, b.opc) := by decide

theorem test_decodeTableWord :
    decodeTableWord 32 0x110 = some .blkdec ∧ decodeTableWord 32 0x101 = none ∧ decodeTableWord 40 0x110 = none := by
  decide

/-- Each of the nine words, put where the next step takes it, is answered at once. -/
theorem test_withFetchWord :
    [0x00, 0x02, 0x03, 0x10, 0x110, 0x11, 0x111, 0xFF].all (fun w =>
      match step (State.reset.withFetchWord 32 w) with
      | .next t => decide (t.pending = [] ∧ t.responses = [.ok])
      | _ => false) = true := by decide +kernel

/-! ### The port -/

/-- V-RD1 to V-RD8, on the reset state. -/
theorem test_reads_after_reset :
    [0x0000#16, 0x0004#16, 0x0008#16, 0x0028#16, 0x1000#16, 0x1200#16, 0x123C#16, 0x1208#16].map
        (fun off => answer State.reset (.read off .w4)) =
      [0x46434531#32, 0#32, 0#32, 0x100#32, 0#32, 1#32, 1#32, 2#32].map (fun v => some (.word v)) := by decide +kernel

/-- V-X1 to V-X13 but V-X10: reads that are not accepted. -/
theorem test_reads_rejected :
    [(0x002C#16, Width.w4), (0x0000#16, .w1), (0x0000#16, .w2), (0x0002#16, .w4), (0x0040#16, .w4), (0x0048#16, .w1),
      (0x10E0#16, .w4), (0x1240#16, .w4), (0x2080#16, .w4), (0x4100#16, .w1), (0x4000#16, .w4), (0xFFFC#16, .w4)].all
      (fun a => answer State.reset (.read a.1 a.2) == some .busError) = true := by decide +kernel

/-- V-X10 and V-X14 to V-X19. -/
theorem test_writes_rejected :
    answer State.reset (.read 0x40FF#16 .w1) = some (.byte 0#8) ∧
      [HostOp.write 0x0000#16 (.b32 0#32), .write 0x0008#16 (.b32 0#32), .write 0x1000#16 (.b32 1#32),
        .write 0x2000#16 (.b32 0#32), .write 0x0028#16 (.b32 8#32), .write 0x0004#16 (.b8 1#8)].all
        (fun op => answer (keyed tId mojklucz) op == some .busError) = true := by decide +kernel

/-- V-RD23 to V-RD30 with the round keys of V-KS3: `STATUS`, `KEY`, and the round-key window. -/
theorem test_reads_with_keys :
    [0x0008#16, 0x0020#16, 0x0024#16, 0x2000#16, 0x2004#16, 0x2078#16, 0x207C#16].map
        (fun off => answer (keyed tId mojklucz) (.read off .w4)) =
      [3#32, 0x6D6F6A6B#32, 0x6C75637A#32, 0x0000DADE#32, 0xD4CDB63A#32, 0x00006D6F#32, 0x6A6B6C75#32].map
        (fun v => some (.word v)) := by decide +kernel

/-- The code that `STATUS` shows in [11:8] for every error (rules R37 and R234). -/
theorem test_error_codes :
    [ErrCode.ok, .illcmd, .notbl, .nokey, .key, .msg, .locked, .range].map
        (fun c => answer { State.reset with err := c } (.read 0x0008#16 .w4)) =
      [0#32, 0x100#32, 0x200#32, 0x300#32, 0x400#32, 0x500#32, 0x600#32, 0x700#32].map (fun v => some (.word v)) := by
  decide +kernel

/-- V-W1 to V-W9: the writable registers and buffers. -/
theorem test_writes :
    (writeSeed State.reset 0xFFFFFFFF#32).seed = 0xFFFFFFFF#32 ∧ (writeSeed (tabled tId) 7#32).err = .locked ∧
      (writeSeed (tabled tId) 7#32).seed = 0#32 ∧ (writeKlen State.reset 8#32).klen = 8 ∧
      (writeKlen State.reset 9#32).klen = 8 ∧ (writeKlen State.reset 0xFFFFFFFF#32).klen = 8 ∧
      (writeMlen State.reset 0x100#32).mlen.val = 256 ∧ (writeMlen State.reset 0x101#32).err = .range ∧
      (writeMlen State.reset 0x101#32).mlen = 0 ∧
      (writeBlkHi State.reset 0xAABBCCDD#32).blk = 0xAABBCCDD00000000#64 ∧
      (writeByte State.reset 0x7A#8 (.kbuf 7)).kbuf.toList = [0#8, 0#8, 0#8, 0#8, 0#8, 0#8, 0#8, 0x7A#8] := by
  decide +kernel

/-- V-CM8 to V-CM13: an illegal word latches `E_ILLCMD`, and the first error is kept. -/
theorem test_illegal_word_latches :
    afterWord (keyed tId mojklucz) 0x80000001#32 State.err = some .illcmd ∧
      afterWord { keyed tId mojklucz with err := .illcmd } 0x00000011#32 State.err = some .illcmd := by decide +kernel

/-- `SETKEY "ab"` is three operations (rule R100). -/
theorem test_script_setKey :
    Script.setKey [0x61#8, 0x62#8] =
      [.write 0x0040#16 (.b8 0x61#8), .write 0x0041#16 (.b8 0x62#8), .write 0x0010#16 (.b32 2#32)] := by decide

/-- The results of rule R100 from the responses, on the two words of the block "Message!" and its first two bytes,
and none where a line was not accepted. -/
theorem test_script_results :
    Script.blockRead [.word 0x4D657373#32, .word 0x61676521#32] = some message ∧
      Script.blockRead [.word 0x4D657373#32, .busError] = none ∧
      Script.bytesRead [.byte 0x4D#8, .byte 0x65#8] = some [0x4D#8, 0x65#8] ∧
      Script.bytesRead [.byte 0x4D#8, .busError] = none := by decide

/-! ### The commands -/

/-- V-CM1. -/
theorem test_nop : afterWord { tabled tId with err := .range } 0x00000000#32 (fun t => (t.err, t.tblv)) =
    some (.range, true) := by decide +kernel

/-- V-CM14. -/
theorem test_clrerr : afterWord { keyed tId mojklucz with err := .illcmd } 0x00000003#32
    (fun t => (t.err, t.tblv, t.rkv)) = some (.ok, true, true) := by decide +kernel

/-- V-CM15. -/
theorem test_srst : afterWord (keyed tId mojklucz) 0x000000FF#32
    (fun t => decide ({ t with pending := [], responses := [] } = State.reset)) = some true := by decide +kernel

/-- V-P1: the first draws for seed 42, with the two of rule R112. -/
theorem test_lcg_draws : lcgDraw 42#32 56 = (0x4099B181#32, 17) ∧ lcgDraw 0x4099B181#32 55 = (0x168F5CEC#32, 0) := by
  decide +kernel

/-- V-RD10 to V-RD20: entries of every table for seed 42, through `GEN`. -/
theorem test_gen : afterWord { State.reset with seed := 42#32 } 0x00000001#32
      (fun t => (t.tblv, [t.tables.pc1[0].toNat, t.tables.pc1[55].toNat, t.tables.pc2[55].toNat, t.tables.e[0].toNat,
        t.tables.e[47].toNat, t.tables.p[0].toNat, t.tables.ip[0].toNat, t.tables.ipinv[63].toNat,
        t.tables.s[0][0][0].toNat, t.tables.s[3][2][5].toNat, t.tables.s[7][3][15].toNat])) =
    some (true, [0x2A, 0x12, 0x0C, 0x0F, 0x04, 0x10, 0x09, 0x39, 0x0B, 0x09, 0x07]) := by decide +kernel

/-- V-CM6. -/
theorem test_gen_locked : afterWord (tabled tId) 0x00000001#32 (fun t => (t.err, decide (t.tables = tId))) =
    some (.locked, true) := by decide +kernel

/-- V-KS5: round keys 1 and 16 of "mojklucz" on `T_aff`, through `KSCHED`. -/
theorem test_ksched : afterWord { tabled tAff with kbuf := Vector.ofFn fun i => blockByte mojklucz i.val, klen := 8 }
      0x00000002#32 (fun t => (t.key, t.rkv, t.rk[0], t.rk[15])) =
    some (0x6D6F6A6B6C75637A#64, true, 0x94397CE63A72#48, 0xCFC785CF96CC#48) := by decide +kernel

/-- The source's scenario L1-2: key "ab". -/
theorem test_deriveKey : deriveKey #v[0x61#8, 0x62#8, 0#8, 0#8, 0#8, 0#8, 0#8, 0#8] 2 = 0x6162616261626162#64 := by
  decide +kernel

/-- V-CM2 and V-CM5: no tables first, then no key. -/
theorem test_ksched_refused : afterWord State.reset 0x00000002#32 State.err = some .notbl ∧
    afterWord (tabled tId) 0x00000002#32 (fun t => (t.err, t.rkv)) = some (.key, false) := by decide +kernel

/-- V-KS3, rounds 1, 8 and 16. -/
theorem test_schedule : (let rk := schedule mojklucz tId.pc1 tId.pc2 Config.shifts; [rk[0], rk[7], rk[15]]) =
    [0xDADED4CDB63A#48, 0xDA99B5BD58ED#48, 0x6D6F6A6B6C75#48] := by decide +kernel

/-- V-F6, V-F11 and V-F12. -/
theorem test_roundFunction : roundFunction tId 0x61676521#32 0xED649D73E56F#48 = 0x107CA484#32 ∧
    roundFunction tAff 0x12345678#32 0x0F0F0F0F0F0F#48 = 0xC030879B#32 ∧
    roundFunction tAff 0x61676521#32 0xED649D73E56F#48 = 0x45CF2A35#32 := by decide +kernel

/-- V-B2, and the refusal of V-CM3. -/
theorem test_blkenc : afterWord { keyed tId mojklucz with blk := message } 0x00000010#32 State.blk =
      some 0x3E51923CA8FEA1BF#64 ∧
    afterWord State.reset 0x00000010#32 State.err = some .nokey := by decide +kernel

/-- V-B2 backwards. -/
theorem test_blkdec : afterWord { keyed tId mojklucz with blk := 0x3E51923CA8FEA1BF#64 } 0x00000110#32 State.blk =
    some message := by decide +kernel

/-- V-M3 on `T_id`: nine bytes, and a tenth that stays (V-M10). -/
theorem test_msgenc : afterWord (withMessage (keyed tId mojklucz) 9
      [0x4D#8, 0x65#8, 0x73#8, 0x73#8, 0x61#8, 0x67#8, 0x65#8, 0x21#8, 0x21#8, 0xAA#8]) 0x00000011#32
      (fun t => t.mbuf.map Prod.snd) =
    some [0x3E#8, 0x51#8, 0x92#8, 0x3C#8, 0xA8#8, 0xFE#8, 0xA1#8, 0xBF#8, 0x01#8, 0xAA#8] := by decide +kernel

/-- V-CM7: the empty message. -/
theorem test_msgenc_empty : afterWord (keyed tId mojklucz) 0x00000011#32 (fun t => (t.err, t.mbuf)) =
    some (.msg, []) := by decide +kernel

/-- V-M3 on `T_id`, the way back: the ninth byte is not the plaintext's. -/
theorem test_msgdec : afterWord (withMessage (keyed tId mojklucz) 9
      [0x3E#8, 0x51#8, 0x92#8, 0x3C#8, 0xA8#8, 0xFE#8, 0xA1#8, 0xBF#8, 0x01#8]) 0x00000111#32
      (fun t => t.mbuf.map Prod.snd) =
    some [0x4D#8, 0x65#8, 0x73#8, 0x73#8, 0x61#8, 0x67#8, 0x65#8, 0x21#8, 0x10#8] := by decide +kernel

/-- V-CM4: no key wins over no message. -/
theorem test_msgdec_nokey : afterWord State.reset 0x00000111#32 State.err = some .nokey := by decide +kernel

/-! ### Witnesses

One for each statement with hypotheses: operands and a state that meet all of them together, at the ends of
the ranges where a statement has ranges. A statement about `StepsTo` has the premise that an operation is the
next one pending; `issue` makes a state that meets it. -/

theorem witness_CommandWriteRunsTheDecodedCommand :
    (issue (tabled tId) (.write 0x0004#16 (.b32 0x00000110#32))).pending =
      .write 0x0004#16 (.b32 0x00000110#32) :: [] ∧ decodeWord 0x00000110#32 = .ok .blkdec ∧
    decodeWord 0x00000101#32 = .error .directionOnFormatZ ∧
    (issue (tabled tId) (.read 0x0004#16 .w4)).pending = .read 0x0004#16 .w4 :: [] := by decide +kernel

theorem witness_IllegalWordOnlyLatchesIllcmd :
    let nine := [0x00000000#32, 0x00000001#32, 0x00000002#32, 0x00000003#32, 0x00000010#32, 0x00000110#32,
      0x00000011#32, 0x00000111#32, 0x000000FF#32]
    0x00000004#32 ∉ nine ∧ 0x000000FE#32 ∉ nine ∧ 0x00000101#32 ∉ nine ∧ 0x00000210#32 ∉ nine ∧ 0x80000001#32 ∉ nine ∧
      (issue (tabled tId) (.write 0x0004#16 (.b32 0x000000FE#32))).pending =
        .write 0x0004#16 (.b32 0x000000FE#32) :: [] := by decide +kernel

theorem witness_IdleWhileNothingIsPending : State.reset.pending = [] := by decide

/-- The first and the last offset of every accepted row of rule R66, and their neighbours. -/
theorem witness_AcceptanceFollowsTheAddressMap :
    (∀ i : Fin 20, AcceptsWord (#v[0x0000, 0x0028, 0x1000, 0x10DC, 0x1100, 0x11DC, 0x1200, 0x123C, 0x1300, 0x13BC,
      0x1400, 0x147C, 0x1500, 0x15FC, 0x1600, 0x16FC, 0x1800, 0x1FFC, 0x2000, 0x207C].get i)) ∧
    (∀ i : Fin 12, ¬ AcceptsWord (#v[0x002C, 0x0002, 0x0FFC, 0x10E0, 0x11E0, 0x1240, 0x13C0, 0x1480, 0x1700, 0x17FC,
      0x2080, 0xFFFC].get i)) ∧
    (∀ i : Fin 4, AcceptsByte (#v[0x0040, 0x0047, 0x4000, 0x40FF].get i)) ∧
    (∀ i : Fin 4, ¬ AcceptsByte (#v[0x003F, 0x0048, 0x3FFF, 0x4100].get i)) ∧
    (∀ i : Fin 6, WritableWord (#v[0x0004, 0x000C, 0x0010, 0x0014, 0x0018, 0x001C].get i)) ∧
    (∀ i : Fin 3, ¬ WritableWord (#v[0x0000, 0x0008, 0x0020].get i)) := by
  unfold AcceptsWord AcceptsByte WritableWord
  decide +kernel

/-- Operations of every kind, accepted and not. -/
theorem witness_AcceptanceFollowsTheAddressMap_operations :
    Accepted (.read 0x207C#16 .w4) ∧ Accepted (.read 0x40FF#16 .w1) ∧ Accepted (.write 0x0047#16 (.b8 1#8)) ∧
      Accepted (.write 0x001C#16 (.b32 1#32)) ∧ Accepted .hardReset ∧ ¬ Accepted (.read 0x2080#16 .w4) ∧
      ¬ Accepted (.read 0x4100#16 .w1) ∧ ¬ Accepted (.read 0x0000#16 .w2) ∧ ¬ Accepted (.write 0x0048#16 (.b8 1#8)) ∧
      ¬ Accepted (.write 0x0000#16 (.b16 1#16)) ∧ ¬ Accepted (.write 0x1000#16 (.b32 1#32)) := by
  simp [Accepted, AcceptsWord, AcceptsByte, WritableWord, Config.msgMax]

theorem witness_ReadsChangeNothing :
    ({ tabled tId with pending := [.read 0x1000#16 .w4, .read 0x1000#16 .w4], responses := [.ok] } : State).pending =
      .read 0x1000#16 .w4 :: [.read 0x1000#16 .w4] := by decide +kernel

theorem witness_ReadOnlyRegistersReadAndRefuseWrites :
    0x0000#16 ∈ [0x0000#16, 0x0008#16, 0x0020#16, 0x0024#16, 0x0028#16] ∧
      0x0028#16 ∈ [0x0000#16, 0x0008#16, 0x0020#16, 0x0024#16, 0x0028#16] ∧
      (issue (keyed tId mojklucz) (.write 0x0028#16 (.b32 8#32))).pending = .write 0x0028#16 (.b32 8#32) :: [] := by
  decide +kernel

theorem witness_TableWindowsReadTheTables :
    0x1000 ≤ (0x1000#16).toNat ∧ (0x1000#16).toNat ≤ 0x1FFF ∧ 0x1000 ≤ (0x1FFF#16).toNat ∧ (0x1FFF#16).toNat ≤ 0x1FFF ∧
      (issue (tabled tId) (.write 0x1FFC#16 (.b32 1#32))).pending = .write 0x1FFC#16 (.b32 1#32) :: [] := by
  decide +kernel

theorem witness_RoundKeyWindowReadsTheRoundKeys :
    0x2000 ≤ (0x2000#16).toNat ∧ (0x2000#16).toNat ≤ 0x207F ∧ 0x2000 ≤ (0x207F#16).toNat ∧ (0x207F#16).toNat ≤ 0x207F ∧
      (issue (keyed tId mojklucz) (.read 0x207C#16 .w4)).pending = .read 0x207C#16 .w4 :: [] := by decide +kernel

theorem witness_BufferWindowsReadAndWriteBytes :
    Memory.wf (withMessage State.reset 1 [0x41#8]).mbuf = true ∧ 0 < Config.msgMax ∧ 255 < Config.msgMax ∧ 255 ≠ 0 ∧
      (issue (withMessage State.reset 1 [0x41#8]) (.write 0x40FF#16 (.b8 7#8))).pending =
        .write 0x40FF#16 (.b8 7#8) :: [] := by decide +kernel

theorem witness_SeedWriteIsLockedByTheTables : State.reset.tblv = false ∧ (tabled tId).tblv = true ∧
    (issue (tabled tId) (.write 0x000C#16 (.b32 7#32))).pending = .write 0x000C#16 (.b32 7#32) :: [] := by
  decide +kernel

theorem witness_KlenWriteIsClampedToEight :
    (8 : Fin 9).val = min (0xFFFFFFFF#32).toNat 8 ∧ (0 : Fin 9).val = min (0#32).toNat 8 ∧
      (issue State.reset (.write 0x0010#16 (.b32 9#32))).pending = .write 0x0010#16 (.b32 9#32) :: [] := by
  decide +kernel

theorem witness_MlenWriteIsRangeChecked :
    (0x100#32).toNat ≤ Config.msgMax ∧ Config.msgMax < (0x101#32).toNat ∧
      (issue State.reset (.write 0x0014#16 (.b32 0x100#32))).pending = .write 0x0014#16 (.b32 0x100#32) :: [] := by
  decide +kernel

theorem witness_BlockRegisterHalvesAreIndependent :
    (issue State.reset (.write 0x0018#16 (.b32 0xAABBCCDD#32))).pending =
      .write 0x0018#16 (.b32 0xAABBCCDD#32) :: [] := by decide +kernel

theorem witness_ResetInputHasTheEffectOfSrst :
    (issue (keyed tId mojklucz) .hardReset).pending = .hardReset :: [] ∧
      (issue (keyed tId mojklucz) (.write 0x0004#16 (.b32 0x000000FF#32))).pending =
        .write 0x0004#16 (.b32 0x000000FF#32) :: [] := by decide +kernel

theorem witness_GenGeneratesTheTablesOnce : State.reset.tblv = false ∧ (tabled tId).tblv = true := by decide

theorem witness_LcgDrawsFollowTheFormula : 1 ≤ 1 ∧ 1 ≤ 56 := by decide

theorem witness_ShufflePermutesWithOneDrawLess : 1 ≤ 1 ∧ 1 ≤ 64 := by decide

/-- Three entries shuffled by `LCG32` from the state 42: the upper halves 16537 and 5775 of its first two states
(rule R112) give 1 below 3 and 1 below 2. -/
theorem witness_ShuffleFollowsTheLoop :
    let g : Nat → Word := fun i => if i = 2 then 42#32 else if i = 1 then 0x4099B181#32 else 0x168F5CEC#32
    let b : Nat → Vector Nat 3 := fun i => if i = 2 then #v[7, 8, 9] else #v[7, 9, 8]
    1 ≤ 3 ∧ ∀ i, 1 ≤ i → i < 3 → g (i - 1) = (lcgDraw (g i) (i + 1)).1 ∧
      Exchanged (b i) (b (i - 1)) i (lcgDraw (g i) (i + 1)).2 := by
  unfold Exchanged; decide +kernel

/-- One generator state after another through rows of `S`, for the witness below. -/
def rowState (p : Config.Prng) (g : p.St) : Nat → p.St
  | 0 => g
  | k + 1 => (shuffle p (rowState p g k) (zeroUpTo 4 16)).1

/-- For every generator and seed there are tables drawn as the statement says. -/
theorem witness_GenerateDrawsTheTablesInOrder (p : Config.Prng) (seed : Word) :
    ∃ (g1 g2 g3 g5 g6 g7 : p.St) (h : Nat → p.St) (pc1 pc2 : Vector (BitVec 6) 56)
      (first second perm : Vector (BitVec 6) 32) (s : Vector (Vector (Vector (BitVec 4) 16) 4) 8)
      (ip ipinv : Vector (BitVec 7) 64),
      Draws p 1 (p.seedInit seed) g1 pc1 ∧ Draws p 1 g1 g2 pc2 ∧ Draws p 1 g2 g3 first ∧ Draws p 1 g3 (h 0) second ∧
      (∀ (b : Fin 8) (r : Fin 4), Draws p 0 (h (4 * b + r)) (h (4 * b + r + 1)) ((s.get b).get r)) ∧
      Draws p 1 (h 32) g5 perm ∧ Draws p 1 g5 g6 ip ∧ Draws p 1 g6 g7 ipinv := by
  have up (w n : Nat) (hn : n < 2 ^ w) (g : p.St) :
      Draws p 1 g (shuffle p g (oneUpTo w n)).1 (shuffle p g (oneUpTo w n)).2 :=
    ⟨oneUpTo w n, entries_oneUpTo w n hn, rfl⟩
  let g1 := (shuffle p (p.seedInit seed) (oneUpTo 6 56)).1
  let g2 := (shuffle p g1 (oneUpTo 6 56)).1
  let g3 := (shuffle p g2 (oneUpTo 6 32)).1
  let h := rowState p (shuffle p g3 (oneUpTo 6 32)).1
  let g5 := (shuffle p (h 32) (oneUpTo 6 32)).1
  let g6 := (shuffle p g5 (oneUpTo 7 64)).1
  refine ⟨g1, g2, g3, g5, g6, _, h, _, _, _, _, _,
    Vector.ofFn fun b => Vector.ofFn fun r => (shuffle p (h (4 * b.val + r.val)) (zeroUpTo 4 16)).2, _, _,
    up 6 56 (by decide) _, up 6 56 (by decide) _, up 6 32 (by decide) _, up 6 32 (by decide) g3, fun b r => ?_,
    up 6 32 (by decide) _, up 7 64 (by decide) _, up 7 64 (by decide) _⟩
  refine ⟨zeroUpTo 4 16, by rw [entries_zeroUpTo 4 16 (by decide), List.range_eq_range'], ?_⟩
  rw [Vector.get_eq_getElem, Vector.get_eq_getElem, Vector.getElem_ofFn, Vector.getElem_ofFn]
  rfl

theorem witness_GeneratedTablesAreLegal : 1 ≤ 1 ∧ 1 ≤ 32 ∧ 32 ≤ 32 := by decide

theorem witness_KschedBuildsTheRoundKeys :
    State.reset.tblv = false ∧ ((tabled tId).tblv = true ∧ (tabled tId).klen.val = 0) ∧
      (({ tabled tId with klen := 1 } : State).tblv = true ∧ ({ tabled tId with klen := 1 } : State).klen.val ≠ 0) := by
  decide +kernel

theorem witness_DerivedKeyRepeatsTheKeyBytes : (2 : Fin 9).val ≠ 0 ∧ 7 % (2 : Fin 9).val < 8 ∧ 7 < 8 := by decide

theorem witness_ShortKeyEqualsItsCyclicExtension :
    (2 : Fin 9).val ≠ 0 ∧ ∀ (i : Nat) (h : i < 8) (h' : i % (2 : Fin 9).val < 8),
      (#v[0x61#8, 0x62#8, 0x61#8, 0x62#8, 0x61#8, 0x62#8, 0x61#8, 0x62#8] : Vector Byte 8)[i] =
        (#v[0x61#8, 0x62#8, 0#8, 0#8, 0#8, 0#8, 0#8, 0#8] : Vector Byte 8)[i % (2 : Fin 9).val] := by decide +kernel

theorem witness_ScheduleFollowsTheRounds :
    let c := fun r => (halvesAfter Config.shifts (initialHalves mojklucz tAff.pc1) r).1
    let d := fun r => (halvesAfter Config.shifts (initialHalves mojklucz tAff.pc1) r).2
    (∀ i, 1 ≤ i → i ≤ 28 → ∀ h : i - 1 < 56, bit (c 0) i = bit mojklucz (tAff.pc1[i - 1]).toNat) ∧
    (∀ i, 1 ≤ i → i ≤ 28 → ∀ h : i + 27 < 56, bit (d 0) i = bit mojklucz (tAff.pc1[i + 27]).toNat) ∧
    (∀ (r : Nat) (h : r < 16), c (r + 1) = rotl (c r) Config.shifts[r] ∧ d (r + 1) = rotr (d r) Config.shifts[r]) ∧
    1 ≤ 48 ∧ 48 - 1 < 56 ∧ 48 ≤ 48 := by
  refine ⟨fun i h1 h2 h => ?_, fun i h1 h2 h => ?_, fun r h => ?_, by decide⟩
  · obtain ⟨j, rfl⟩ : ∃ j, i = j + 1 := ⟨i - 1, by omega⟩
    exact bit_initialHalves_fst mojklucz tAff.pc1 j (by omega)
  · obtain ⟨j, rfl⟩ : ∃ j, i = j + 1 := ⟨i - 1, by omega⟩
    exact bit_initialHalves_snd mojklucz tAff.pc1 j (by omega)
  · simp [halvesAfter, List.getD, h]

theorem witness_KeyHalvesAccumulateTheShifts : 0 ≤ 16 ∧ 16 ≤ 16 := by decide

theorem witness_RotationsMoveBitsAround : 1 ≤ 1 ∧ 1 ≤ 28 ∧ 28 ≤ 28 := by decide

theorem witness_RoundKeyBitsAreKeyBits :
    EntriesWithin tAff.pc1 56 ∧ EntriesWithin tAff.pc2 56 ∧ 1 ≤ 1 ∧ 1 ≤ 48 ∧ 48 ≤ 48 := by
  unfold EntriesWithin; decide +kernel

theorem witness_EighthKeyByteIsDead :
    let s : State := { tabled tAff with klen := 8 }
    s.tblv = true ∧ s.klen.val = 8 ∧ EntriesWithin s.tables.pc1 56 := by
  unfold EntriesWithin; decide +kernel

/-- V-F6: bit 1 of group 0 of `F`, row 3, column 1. -/
theorem witness_RoundFunctionBits :
    (∀ i : Fin 48, bit 0x8C03F8528408#48 (i.val + 1) =
      (bit 0x61676521#32 (tId.e.get i).toNat ^^ bit 0xED649D73E56F#48 (i.val + 1))) ∧
    (tId.p.get 0).toNat = 4 * (0 : Fin 8).val + 1 ∧ (tId.p.get 31).toNat = 4 * (7 : Fin 8).val + 4 ∧
    (3 : Fin 4).val = 2 * ((0x8C03F8528408#48).getLsbD (47 - 6 * (0 : Fin 8).val)).toNat +
      ((0x8C03F8528408#48).getLsbD (42 - 6 * (0 : Fin 8).val)).toNat ∧
    (1 : Fin 16).val = ((0x8C03F8528408#48).toNat / 2 ^ (43 - 6 * (0 : Fin 8).val)) % 16 := by decide +kernel

theorem witness_FeistelFollowsTheRounds :
    let ks := schedule mojklucz tId.pc1 tId.pc2 Config.shifts
    let lr := fun i => (ks.toList.take i).foldl (feistelRound tId) (0x4D657373#32, 0x61676521#32)
    (lr 0).1 = message.extractLsb' 32 32 ∧ (lr 0).2 = message.extractLsb' 0 32 ∧
      ∀ (i : Nat) (h : i < 16), (lr (i + 1)).1 = (lr i).2 ∧
        (lr (i + 1)).2 = (lr i).1 ^^^ roundFunction tId (lr i).2 ks[i] := by decide +kernel

theorem witness_BlkencTransformsTheBlockRegister :
    (keyed tId mojklucz).rkv = true ∧ (tabled tId).rkv = false := by decide +kernel

theorem witness_BlkdecTransformsTheBlockRegister :
    (keyed tId mojklucz).rkv = true ∧ (tabled tId).rkv = false := by decide +kernel

theorem witness_BlockCommandsUndoEachOther : (keyed tId mojklucz).rkv = true := by decide +kernel

theorem witness_MsgencTransformsTheMessage :
    (let s := withMessage (keyed tId mojklucz) 1 [0x41#8]
     Memory.wf s.mbuf = true ∧ s.rkv = true ∧ s.mlen.val ≠ 0) ∧
    (Memory.wf (tabled tId).mbuf = true ∧ (tabled tId).rkv = false) ∧
    (let s := keyed tId mojklucz
     Memory.wf s.mbuf = true ∧ s.rkv = true ∧ s.mlen.val = 0) := by decide +kernel

theorem witness_MsgdecTransformsTheMessage :
    (let s := withMessage (keyed tId mojklucz) 256 [0x41#8]
     Memory.wf s.mbuf = true ∧ s.rkv = true ∧ s.mlen.val ≠ 0) ∧
    (Memory.wf (tabled tId).mbuf = true ∧ (tabled tId).rkv = false) ∧
    (let s := keyed tId mojklucz
     Memory.wf s.mbuf = true ∧ s.rkv = true ∧ s.mlen.val = 0) := by decide +kernel

theorem witness_WholeBlockMessageRoundTrip :
    (let s := withMessage (keyed tId mojklucz) 8 [0x41#8]
     Memory.wf s.mbuf = true ∧ s.rkv = true ∧ s.mlen.val ≠ 0 ∧ s.mlen.val % 8 = 0) ∧
    (let s := withMessage (keyed tId mojklucz) 256 [0x41#8]
     Memory.wf s.mbuf = true ∧ s.rkv = true ∧ s.mlen.val ≠ 0 ∧ s.mlen.val % 8 = 0) := by decide +kernel

/-- The tables of seed 42 are legal. -/
theorem witness_legal_tables : (generate Config.prng 42#32).Legal where
  pc1 := by decide +kernel
  pc2 := by decide +kernel
  eFirst := by decide +kernel
  eSecondDistinct := by decide +kernel
  eSecondRange := by decide +kernel
  s := by decide +kernel
  p := by decide +kernel
  ip := by decide +kernel
  ipinv := by decide +kernel

/-- Message lengths 7, 9 and 255, in both orders. -/
theorem witness_WholeBlocksBeforeAPartialOneRoundTrip :
    (∀ n : Fin 3, let s := withMessage (keyed tId mojklucz) (#v[7, 9, 255].get n) [0x41#8]
      Memory.wf s.mbuf = true ∧ s.rkv = true ∧ s.mlen.val ≠ 0) ∧
    (Instr.msgenc, Instr.msgdec) ∈ [(Instr.msgenc, Instr.msgdec), (.msgdec, .msgenc)] ∧
    (Instr.msgdec, Instr.msgenc) ∈ [(Instr.msgenc, Instr.msgdec), (.msgdec, .msgenc)] := by decide +kernel

/-- The counter-example of rule R212 c: seed 42, key "mojklucz", "Message!!". -/
def partialMessage : State :=
  withMessage { keyed (generate Config.prng 42#32) mojklucz with seed := 42#32 } 9
    [0x4D#8, 0x65#8, 0x73#8, 0x73#8, 0x61#8, 0x67#8, 0x65#8, 0x21#8, 0x21#8]

/-- That state meets the invariant, and its last byte comes back as 0x8D (rule R210). -/
theorem witness_PartialBlockDoesNotRoundTrip :
    partialMessage.Inv ∧ partialMessage.rkv = true ∧ partialMessage.mlen.val % 8 ≠ 0 ∧ 8 < partialMessage.mlen.val ∧
      Memory.read (crypt .decrypt (partialMessage.setMbuf (crypt .encrypt partialMessage))) 8 = 0x8D#8 ∧
      Memory.read partialMessage.mbuf 8 = 0x21#8 :=
  ⟨⟨by decide +kernel, fun _ => rfl, fun _ => rfl, fun _ => witness_legal_tables, fun _ => rfl, (nomatch ·), (nomatch ·)⟩,
    rfl, by decide +kernel, by decide +kernel, by decide +kernel, by decide +kernel⟩

theorem witness_EqualBlocksGiveEqualOutputBlocks :
    let s := withMessage (keyed tId mojklucz) 16 (List.replicate 16 0x41#8)
    Memory.wf s.mbuf = true ∧ s.rkv = true ∧ (Instr.msgenc = .msgenc ∨ Instr.msgenc = .msgdec) ∧
      8 * 0 + 8 ≤ s.mlen.val ∧ 8 * 1 + 8 ≤ s.mlen.val ∧
      ∀ k, k < 8 → Memory.read s.mbuf (8 * 0 + k) = Memory.read s.mbuf (8 * 1 + k) := by decide +kernel

theorem witness_ScriptReadsGiveTheirResults : 0 ≤ Config.msgMax ∧ 256 ≤ Config.msgMax := by decide

/-- Messages of 1 and of `MSG_MAX` bytes, keys of 1 and of 9 bytes. -/
theorem witness_EncryptAndDecryptReturnTheText :
    Memory.wf (tabled tId).mbuf = true ∧ (tabled tId).tblv = true ∧ [0x41#8] ≠ [] ∧ [0x41#8].length ≤ Config.msgMax ∧
      (List.replicate 256 0x41#8).length ≤ Config.msgMax ∧
      (let k := [0x61#8]
       k ≠ [] ∧ k.length < 2 ^ 32 ∧ ∀ i, i < 8 → k[i % min k.length 8]? = some (blockByte 0x6161616161616161#64 i)) ∧
      (let k := [0x6D#8, 0x6F#8, 0x6A#8, 0x6B#8, 0x6C#8, 0x75#8, 0x63#8, 0x7A#8, 0x21#8]
       k ≠ [] ∧ k.length < 2 ^ 32 ∧ ∀ i, i < 8 → k[i % min k.length 8]? = some (blockByte mojklucz i)) := by
  decide +kernel

/-- A state with a latched error in which each of three operations steps: one that keeps the latch and the two
that clear it. -/
theorem witness_FirstErrorIsKeptUntilAcknowledged :
    ∀ op ∈ [HostOp.write 0x0004#16 (.b32 0x00000011#32), .write 0x0004#16 (.b32 0x00000003#32), .hardReset],
      let s := issue { tabled tId with err := .range } op
      s.err ≠ .ok ∧ (match step s with | .next _ => true | _ => false) = true := by decide +kernel

theorem witness_OperationsRunTheSameWhateverTheLatch :
    let s := issue (tabled tId) (.write 0x0004#16 (.b32 0x00000010#32))
    let u : State := { s with err := .range }
    s ≠ u ∧ SameButLatch s u ∧ (match step s with | .next _ => true | _ => false) = true ∧
      s.pending.head? ≠ some (.read 0x0008#16 .w4) := by
  unfold SameButLatch; decide +kernel

theorem witness_TablesAndSeedStayUntilReset :
    let s := issue generated (.write 0x000C#16 (.b32 7#32))
    s.tblv = true ∧ (match step s with | .next t => t.err == .locked | _ => false) = true := by decide +kernel

theorem witness_RoundKeysAreASnapshotOfKsched :
    let s := issue { keyed tId mojklucz with klen := 1 } (.write 0x0004#16 (.b32 0x00000002#32))
    s.rkv = true ∧ (match step s with | .next t => t.key == 0#64 | _ => false) = true := by decide +kernel

/-- A state past `GEN` that meets the invariant and steps. -/
theorem witness_EveryStepKeepsTheInvariant :
    (issue generated (.write 0x0014#16 (.b32 0x100#32))).Inv ∧
      (match step (issue generated (.write 0x0014#16 (.b32 0x100#32))) with | .next _ => true | _ => false) = true :=
  ⟨⟨by decide, fun _ => rfl, fun _ => rfl, fun _ => witness_legal_tables, (nomatch ·), (nomatch ·), fun _ => ⟨rfl, rfl⟩⟩,
    by decide +kernel⟩

theorem witness_OneResponsePerOperationInOrder :
    (issue State.reset .hardReset).pending = .hardReset :: [] := by decide

end Sys2Proof.Tests
end

section
/-! The statements of spec/00_scope.md: the bit-string notation. -/

namespace Sys2Proof.Machine

/-- Settles O34: where each rotation moves a bit is rule R13 in the form of `bit_rotl` and `bit_rotr`, and the
two moves cancel (`rotr_rotl`). -/
theorem rotationsMoveBitsAround : Obligations.RotationsMoveBitsAround := by
  intro s k
  refine ⟨fun i h1 h28 => ⟨?_, ?_⟩, ?_⟩
  · exact bit_rotl s k i h1 h28
  · exact bit_rotr s k i h1 h28
  · exact rotr_rotl s k

end Sys2Proof.Machine
end

section
/-! Generated tables are legal (spec/40_table_generator.md rule R121), clause by clause. -/

namespace Sys2Proof.Machine

open Sys2Proof.Config (Prng)

/-- A shuffle of the ascending list from 1 holds exactly its numbers. -/
theorem entries_shuffle_oneUpTo (p : Prng) (g : p.St) (w n : Nat) (h : n < 2 ^ w) :
    (entries (shuffle p g (oneUpTo w n)).2).Perm (List.range' 1 n) := by
  simpa only [entries_oneUpTo w n h] using entries_shuffle p g (oneUpTo w n)

/-- A shuffle of the ascending list from 0 holds exactly its numbers. -/
theorem entries_shuffle_zeroUpTo (p : Prng) (g : p.St) (w n : Nat) (h : n ≤ 2 ^ w) :
    (entries (shuffle p g (zeroUpTo w n)).2).Perm (List.range n) := by
  simpa only [entries_zeroUpTo w n h] using entries_shuffle p g (zeroUpTo w n)

/-- `E` is a whole shuffle of 1 to 32, then the first 16 entries of another one (rule R115). -/
theorem entries_drawExpansion (p : Prng) (g : p.St) : ∃ first second : List Nat,
    first.Perm (List.range' 1 32) ∧ second.Perm (List.range' 1 32) ∧
      entries (drawExpansion p g).2 = first ++ second.take 16 := by
  refine ⟨_, _, entries_shuffle_oneUpTo p g 6 32 (by decide),
    entries_shuffle_oneUpTo p (shuffle p g (oneUpTo 6 32)).1 6 32 (by decide), ?_⟩
  have cut : ∀ a b : List Nat, a.length = 32 → (a ++ b).take 48 = a ++ b.take 16 := fun a b ha => by
    rw [List.take_append, ha, List.take_of_length_le (by omega)]
  exact (entries_append_cut _ _ (by decide)).trans (cut _ _ (by simp [entries]))

/-- Every row of `S` is a shuffle of 0 to 15 (rule R116). -/
theorem entries_drawSboxes (p : Prng) (g : p.St) (b : Fin 8) (r : Fin 4) :
    (entries (((drawSboxes p g).2.get b).get r)).Perm (List.range 16) := by
  have row (g : p.St) : (entries (shuffle p g (zeroUpTo 4 16)).2).Perm (List.range 16) :=
    entries_shuffle_zeroUpTo p g 4 16 (by decide)
  have box := drawMany_get (fun g => shuffle p g (zeroUpTo 4 16))
    (fun t => (entries t).Perm (List.range 16)) row 4
  exact drawMany_get (drawMany (fun g => shuffle p g (zeroUpTo 4 16)) 4)
    (fun t => ∀ r : Fin 4, (entries (t.get r)).Perm (List.range 16)) box 8 g b r

/-- Rule R121: the tables that any generator draws from any seed are legal. -/
theorem generate_legal (p : Prng) (seed : Word) : (generate p seed).Legal := by
  obtain ⟨first, second, hfirst, hsecond, he⟩ := entries_drawExpansion p
    (shuffle p (shuffle p (p.seedInit seed) (oneUpTo 6 56)).1 (oneUpTo 6 56)).1
  replace he : entries (generate p seed).e = first ++ second.take 16 := he
  have hlen : first.length = 32 := hfirst.length_eq
  exact {
    pc1 := entries_shuffle_oneUpTo p _ 6 56 (by decide)
    pc2 := entries_shuffle_oneUpTo p _ 6 56 (by decide)
    eFirst := by rwa [he, List.take_left' hlen]
    eSecondDistinct := by
      rw [he, List.drop_left' hlen]
      exact (hsecond.nodup_iff.2 List.nodup_range').sublist (List.take_sublist 16 second)
    eSecondRange := fun x hx => by
      rw [he, List.drop_left' hlen] at hx
      have := List.mem_range'_1.1 (hsecond.mem_iff.1 (List.mem_of_mem_take hx))
      omega
    s := entries_drawSboxes p _
    p := entries_shuffle_oneUpTo p _ 6 32 (by decide)
    ip := entries_shuffle_oneUpTo p _ 7 64 (by decide)
    ipinv := entries_shuffle_oneUpTo p _ 7 64 (by decide) }

end Sys2Proof.Machine
end

section
/-! What one host operation can do to the tables, the keys and the buffer, and the statements of
spec/10_state.md that follow from it: the invariant of rule R47, and when tables and keys change. -/

namespace Sys2Proof

/-- A word that decodes to a command is that command's word (rule R93). -/
theorem encode_of_decodeWord {w : Word} {i : Instr} (h : decodeWord w = .ok i) : encode i = w := by
  simp only [decodeWord] at h
  split at h
  · cases h
  · next hres =>
    have hselect : selectCommand (RawCommand.ofWord w).dir (RawCommand.ofWord w).opc = some i := by
      split at h
      · next j hj => rw [hj, Except.ok.inj h]
      · split at h <;> cases h
    have hfields : i.fields = RawCommand.ofWord w := by
      rw [fields_of_selectCommand hselect, ← not_not.1 hres]
    rw [encode, hfields, RawCommand.toWord_ofWord]

end Sys2Proof

namespace Sys2Proof.Machine

open Sys2Proof.Statements

/-- `u` has the seed, the tables, the keys and the two valid flags of `s`. -/
structure SameTablesAndKeys (s u : State) : Prop where
  seed : u.seed = s.seed := by rfl
  tblv : u.tblv = s.tblv := by rfl
  tables : u.tables = s.tables := by rfl
  key : u.key = s.key := by rfl
  rk : u.rk = s.rk := by rfl
  rkv : u.rkv = s.rkv := by rfl

theorem SameTablesAndKeys.raiseErr (s : State) (c : ErrCode) : SameTablesAndKeys s (raiseErr c s) := by
  constructor <;> simp

/-- What one operation can do to the seed, the tables, the keys, the two valid flags and the canonical form of
the buffer: each way to change them, with the operation that does it. -/
inductive EngineChange (s : State) : HostOp → State → Prop
  | kept {op : HostOp} {u : State} (h : SameTablesAndKeys s u)
      (hb : Memory.wf s.mbuf = true → Memory.wf u.mbuf = true) : EngineChange s op u
  | seeded {op : HostOp} (v : Word) (h : s.tblv = false) : EngineChange s op (s.setSeed v)
  | generated {op : HostOp} (h : s.tblv = false) : EngineChange s op (s.setTables (generate Config.prng s.seed))
  | scheduled (k : Block) (h : s.tblv = true) : EngineChange s (.write 0x0004#16 (.b32 0x00000002#32))
      (s.setKeys k (schedule k s.tables.pc1 s.tables.pc2 Config.shifts))
  | reset {op : HostOp} (h : op = .hardReset ∨ op = .write 0x0004#16 (.b32 0x000000FF#32)) :
      EngineChange s op (resetEngine s)

/-- A refused operation changes the latch at most (rule R236). -/
theorem EngineChange.raised (s : State) (op : HostOp) (c : ErrCode) : EngineChange s op (raiseErr c s) :=
  .kept (.raiseErr s c) (by simp)

theorem blockCommand_change {s u : State} {d : Direction} (op : HostOp) (h : blockCommand d s = .next u) :
    EngineChange s op u := by
  obtain ⟨-, rfl⟩ | ⟨-, rfl⟩ := blockCommand_next h
  · exact .raised s op .nokey
  · exact .kept {} id

theorem messageCommand_change {s u : State} {d : Direction} (op : HostOp) (h : messageCommand d s = .next u) :
    EngineChange s op u := by
  obtain ⟨-, rfl⟩ | ⟨-, -, rfl⟩ | ⟨-, -, rfl⟩ := messageCommand_next h
  · exact .raised s op .nokey
  · exact .raised s op .msg
  · exact .kept {} fun hb =>
      wf_cryptBlocks _ _ _ _ (Nat.le_of_lt_succ s.mlen.isLt) hb _ le_rfl

/-- The change a command makes, written to `CMD` as its word. -/
theorem exec_change {s u : State} {i : Instr} (h : exec i s = .next u) :
    EngineChange s (.write 0x0004#16 (.b32 (encode i))) u := by
  cases i with
  | nop => rw [execNop_next h]; exact .kept {} id
  | gen =>
    obtain ⟨-, rfl⟩ | ⟨ht, rfl⟩ := execGen_next h
    · exact .raised s _ .locked
    · exact .generated ht
  | ksched =>
    obtain ⟨-, rfl⟩ | ⟨-, -, rfl⟩ | ⟨ht, -, rfl⟩ := execKsched_next h
    · exact .raised s _ .notbl
    · exact .raised s _ .key
    · exact .scheduled _ ht
  | clrerr => rw [execClrerr_next h]; exact .kept {} id
  | blkenc => exact blockCommand_change _ h
  | blkdec => exact blockCommand_change _ h
  | msgenc => exact messageCommand_change _ h
  | msgdec => exact messageCommand_change _ h
  | srst => rw [execSrst_next h]; exact .reset (.inr rfl)

/-- The change a host operation makes. -/
theorem Handled.change {s u : State} {op : HostOp} {r : Resp} (h : Handled s op u r) : EngineChange s op u := by
  cases h with
  | read off w => exact .kept {} id
  | rejected off d hd => exact .kept {} id
  | byte off v l hl =>
    cases l with
    | kbuf i => exact .kept {} id
    | mbuf i => exact .kept {} (Memory.wf_write _ _ _ i.isLt)
  | seed v =>
    unfold writeSeed
    split
    · exact .raised s _ .locked
    · next ht => exact .seeded v (Bool.eq_false_of_not_eq_true ht)
  | klen v => exact .kept {} id
  | mlen v =>
    unfold writeMlen
    split
    · exact .kept {} id
    · exact .raised s _ .range
  | blkHi v => exact .kept {} id
  | blkLo v => exact .kept {} id
  | illegal w e hw => exact .raised s _ .illcmd
  | command w i u hw hu => rw [← encode_of_decodeWord hw]; exact exec_change hu
  | reset => exact .reset (.inl rfl)

/-- What one step can do: nothing, or the change of the next operation; what it does to the two ends of the
port touches none of these elements. -/
theorem step_change {s t : State} (h : step s = .next t) :
    t = s ∨ ∃ op rest u, s.pending = op :: rest ∧ EngineChange (s.setPending rest) op u ∧
      SameTablesAndKeys u t ∧ t.mbuf = u.mbuf := by
  obtain ⟨-, rfl⟩ | ⟨op, rest, u, r, hp, hu, rfl⟩ := step_cases h
  · exact .inl rfl
  · exact .inr ⟨op, rest, u, hp, hu.change, {}, rfl⟩

/-! ### The invariant -/

/-- Settles O56: the buffer is empty, both flags are 0 and tables and keys have their reset values. -/
theorem invariantHoldsAtReset : Obligations.InvariantHoldsAtReset where
  buffer := Memory.wf_nil
  keysNeedTables := nofun
  tablesOfSeed := nofun
  tablesLegal := nofun
  keysOfSchedule := nofun
  tablesReset := fun _ => rfl
  keysReset := fun _ => ⟨rfl, rfl⟩

/-- The invariant speaks of the seed, the tables, the keys, the flags and the buffer's form only. -/
theorem State.Inv.of_same {s t : State} (h : s.Inv) (e : SameTablesAndKeys s t)
    (hb : Memory.wf t.mbuf = true) : t.Inv := by
  obtain ⟨hseed, htblv, htables, hkey, hrk, hrkv⟩ := e
  exact {
    buffer := hb
    keysNeedTables := by rw [hrkv, htblv]; exact h.keysNeedTables
    tablesOfSeed := by rw [htblv, htables, hseed]; exact h.tablesOfSeed
    tablesLegal := by rw [htblv, htables]; exact h.tablesLegal
    keysOfSchedule := by rw [hrkv, hrk, hkey, htables]; exact h.keysOfSchedule
    tablesReset := by rw [htblv, htables]; exact h.tablesReset
    keysReset := by rw [hrkv, hkey, hrk]; exact h.keysReset }

/-- `GEN` and a write to `SEED` find no tables, so no keys; `KSCHED` finds tables; a reset finds nothing. -/
theorem EngineChange.inv {s u : State} {op : HostOp} (h : s.Inv) (c : EngineChange s op u) : u.Inv := by
  have nokeys (ht : s.tblv = false) : s.rkv ≠ true := fun hr => by simp [h.keysNeedTables hr] at ht
  cases c with
  | kept e hb => exact h.of_same e (hb h.buffer)
  | seeded v ht => exact { h with
      tablesOfSeed := fun ht' => absurd ht' (by simp [ht]) }
  | generated ht => exact { h with
      keysNeedTables := fun _ => rfl
      tablesOfSeed := fun _ => rfl
      tablesLegal := fun _ => generate_legal _ _
      keysOfSchedule := fun hr => absurd hr (nokeys ht)
      tablesReset := nofun }
  | scheduled k ht => exact { h with
      keysNeedTables := fun _ => ht
      keysOfSchedule := fun _ => rfl
      keysReset := nofun }
  | reset => exact invariantHoldsAtReset.of_same {} Memory.wf_nil

/-- Settles O57, by the changes one operation can make: the invariant looks at nothing else. -/
theorem everyStepKeepsTheInvariant : Obligations.EveryStepKeepsTheInvariant := by
  intro s t h hstep
  obtain rfl | ⟨op, rest, u, -, hc, hsame, hbuf⟩ := step_change hstep
  · exact h
  · have hpending : (s.setPending rest).Inv := h.of_same {} h.buffer
    have hu : u.Inv := hc.inv hpending
    exact hu.of_same hsame (hbuf ▸ hu.buffer)

/-! ### When tables and keys change -/

/-- A reset that is the next operation (rule R260). -/
theorem resetsNext_of_pending {s : State} {op : HostOp} {rest : List HostOp} (hp : s.pending = op :: rest)
    (h : op = .hardReset ∨ op = .write 0x0004#16 (.b32 0x000000FF#32)) : ResetsNext s := by
  simpa [ResetsNext, hp] using h

/-- Settles O54: with `TBLV` at 1, neither `GEN` nor a write to `SEED` is among the changes. -/
theorem tablesAndSeedStayUntilReset : Obligations.TablesAndSeedStayUntilReset := by
  intro s t ht hstep
  obtain rfl | ⟨op, rest, u, hp, hc, hsame, -⟩ := step_change hstep
  · exact .inl ⟨ht, rfl, rfl⟩
  rw [hsame.tblv, hsame.tables, hsame.seed]
  cases hc with
  | kept e => exact .inl ⟨e.tblv.trans ht, e.tables, e.seed⟩
  | seeded v hf => simp [ht] at hf
  | generated hf => simp [ht] at hf
  | scheduled k => exact .inl ⟨ht, rfl, rfl⟩
  | reset h => exact .inr (resetsNext_of_pending hp h)

/-- Settles O55: of the changes only `KSCHED`, which sets `RKV`, and a reset touch the keys. -/
theorem roundKeysAreASnapshotOfKsched : Obligations.RoundKeysAreASnapshotOfKsched := by
  intro s t hstep
  obtain rfl | ⟨op, rest, u, hp, hc, hsame, -⟩ := step_change hstep
  · exact ⟨.inl, .inl ⟨rfl, rfl, rfl⟩⟩
  rw [hsame.key, hsame.rk, hsame.rkv]
  cases hc with
  | kept e => exact ⟨fun hr => .inl (e.rkv.trans hr), .inl ⟨e.key, e.rk, e.rkv⟩⟩
  | seeded v => exact ⟨.inl, .inl ⟨rfl, rfl, rfl⟩⟩
  | generated => exact ⟨.inl, .inl ⟨rfl, rfl, rfl⟩⟩
  | scheduled k => exact ⟨fun _ => .inl rfl, .inr (.inl (by simp [CommandsNext, hp]))⟩
  | reset h => exact ⟨fun _ => .inr (resetsNext_of_pending hp h), .inr (.inr (resetsNext_of_pending hp h))⟩

end Sys2Proof.Machine
end

section
/-! The step answers, whatever the latch holds: totality (spec/10_state.md rule R46) and that only a read of
`STATUS` sees the latch (rules R33 and R240). -/

namespace Sys2Proof.Machine

open Sys2Proof.Statements

/-! ### Commands that do not look at the latch -/

/-- `f` goes on from every state, and from a state with another latch to a state with another latch at most. -/
def LatchBlind (f : State → Host.Outcome State Fault Refusal) : Prop :=
  ∀ s c, ∃ t c', f s = .next t ∧ f (s.setErr c) = .next (t.setErr c')

/-- Two outcomes chosen by a condition that does not look at the latch. -/
theorem LatchBlind.ite {p : State → Prop} [DecidablePred p] {f g : State → Host.Outcome State Fault Refusal}
    (hp : ∀ s c, p (s.setErr c) ↔ p s) (hf : LatchBlind f) (hg : LatchBlind g) :
    LatchBlind fun s => if p s then f s else g s := by
  intro s c
  simp only [hp]
  split
  · exact hf s c
  · exact hg s c

/-- An update that leaves the latch alone. -/
theorem LatchBlind.next {g : State → State} (hg : ∀ s c, g (s.setErr c) = (g s).setErr c) :
    LatchBlind fun s => .next (g s) := fun s c => ⟨g s, c, rfl, congrArg _ (hg s c)⟩

/-- Raising an error over another latch differs in the latch at most. -/
theorem raiseErr_setErr (e c : ErrCode) (s : State) :
    raiseErr e (s.setErr c) = (raiseErr e s).setErr (if c = .ok then e else c) := by
  rw [raiseErr_eq, raiseErr_eq]; rfl

theorem LatchBlind.refuse (e : ErrCode) : LatchBlind (refuse e) := fun s c =>
  ⟨raiseErr e s, _, rfl, congrArg Host.Outcome.next (raiseErr_setErr e c s)⟩

theorem LatchBlind.blockCommand (d : Direction) : LatchBlind (blockCommand d) :=
  .ite (fun _ _ => .rfl) (.refuse .nokey) (.next fun _ _ => rfl)

theorem LatchBlind.messageCommand (d : Direction) : LatchBlind (messageCommand d) :=
  .ite (fun _ _ => .rfl) (.refuse .nokey) <| .ite (fun _ _ => .rfl) (.refuse .msg) <| .next fun _ _ => rfl

theorem LatchBlind.exec (i : Instr) : LatchBlind (exec i) :=
  match i with
  | .nop => .next fun _ _ => rfl
  | .gen => .ite (fun _ _ => .rfl) (.refuse .locked) (.next fun _ _ => rfl)
  | .ksched => .ite (fun _ _ => .rfl) (.refuse .notbl) <| .ite (fun _ _ => .rfl) (.refuse .key) <|
      .next fun _ _ => rfl
  | .clrerr => fun s _ => ⟨clearErr s, .ok, rfl, rfl⟩
  | .blkenc => .blockCommand .encrypt
  | .blkdec => .blockCommand .decrypt
  | .msgenc => .messageCommand .encrypt
  | .msgdec => .messageCommand .decrypt
  | .srst => fun s _ => ⟨resetEngine s, .ok, rfl, rfl⟩

/-! ### Every step answers -/

/-- Every command has an effect in every state (rule R46). -/
theorem exec_next (i : Instr) (s : State) : ∃ t, exec i s = .next t :=
  let ⟨t, _, h, _⟩ := LatchBlind.exec i s .ok
  ⟨t, h⟩

/-- Every word written to `CMD` has one (rule R96). -/
theorem runCommand_next (w : Word) (s : State) : ∃ t, runCommand w s = .next t := by
  unfold runCommand
  split
  · exact exec_next _ s
  · exact ⟨_, rfl⟩

theorem writeWord_next {s : State} {v : Word} {l : WordLoc} {o : Host.Outcome State Fault Refusal}
    (h : writeWord s v l = some o) : ∃ t, o = .next t := by
  cases l <;> simp only [writeWord, Option.some.injEq, reduceCtorEq] at h <;> subst h
  case cmd => exact runCommand_next v s
  all_goals exact ⟨_, rfl⟩

theorem busWrite_next {s : State} {off : BitVec 16} {d : BusData} {o : Host.Outcome State Fault Refusal}
    (h : busWrite s off d = some o) : ∃ t, o = .next t := by
  cases d with
  | b8 v =>
    obtain ⟨l, -, rfl⟩ := Option.map_eq_some_iff.1 h
    exact ⟨_, rfl⟩
  | b16 v => cases h
  | b32 v =>
    obtain ⟨l, -, hl⟩ := Option.bind_eq_some_iff.1 h
    exact writeWord_next hl

/-- Every host operation has a response and a next state (rule R61). -/
theorem perform_next (s : State) (op : HostOp) : ∃ t, perform s op = .next t := by
  cases op with
  | read off w => exact ⟨_, rfl⟩
  | hardReset => exact ⟨_, rfl⟩
  | write off d =>
    cases hb : busWrite s off d with
    | none => exact ⟨s.respond .busError, by simp only [perform, hb]⟩
    | some o =>
      obtain ⟨t, rfl⟩ := busWrite_next hb
      exact ⟨t.respond .ok, by simp only [perform, hb]; rfl⟩

/-- Settles O58: with nothing pending the state stays, and every operation has a next state. -/
theorem everyStepAnswersANextState : Obligations.EveryStepAnswersANextState := by
  intro s
  cases hp : s.pending with
  | nil => exact ⟨s, by unfold step advance; rw [hp]⟩
  | cons op rest =>
    obtain ⟨t, ht⟩ := perform_next (s.setPending rest) op
    exact ⟨t, (step_pending hp).trans ht⟩

/-! ### From an operation handled to the step -/

/-- A 4-byte write reaches the location that stands at its offset. -/
theorem busWrite_offset (s : State) (l : WordLoc) (v : Word) :
    busWrite s (BitVec.ofNat 16 l.offset) (.b32 v) = writeWord s v l := by
  rw [busWrite, locateWord_offset, Option.bind_some]

theorem perform_of_busWrite {s u : State} {off : BitVec 16} {d : BusData}
    (h : busWrite s off d = some (.next u)) : perform s (.write off d) = .next (u.respond .ok) := by
  simp only [perform, h]; rfl

/-- `Handled` says exactly what `perform` does; `perform_cases` is the other direction. -/
theorem Handled.perform_eq {s u : State} {op : HostOp} {r : Resp} (h : Handled s op u r) :
    perform s op = .next (u.respond r) := by
  cases h with
  | read off w => rfl
  | rejected off d hd => simp only [perform, hd]
  | byte off v l hl =>
    exact perform_of_busWrite (by rw [busWrite, locateByte_eq_some.2 hl, Option.map_some])
  | seed v => exact perform_of_busWrite (busWrite_offset s .seed v)
  | klen v => exact perform_of_busWrite (busWrite_offset s .klen v)
  | mlen v => exact perform_of_busWrite (busWrite_offset s .mlen v)
  | blkHi v => exact perform_of_busWrite (busWrite_offset s .blkHi v)
  | blkLo v => exact perform_of_busWrite (busWrite_offset s .blkLo v)
  | illegal w e hw =>
    have hrun : runCommand w s = .next (raiseErr .illcmd s) := by simp only [runCommand, hw, refuse]
    exact perform_of_busWrite ((busWrite_offset s .cmd w).trans (congrArg some hrun))
  | command w i u hw hu =>
    have hrun : runCommand w s = .next u := by simp only [runCommand, hw, hu]
    exact perform_of_busWrite ((busWrite_offset s .cmd w).trans (congrArg some hrun))
  | reset => rfl

/-- The step, from how the operation is handled. -/
theorem Handled.step_eq {s u : State} {op : HostOp} {rest : List HostOp} {r : Resp} (hp : s.pending = op :: rest)
    (h : Handled (s.setPending rest) op u r) : step s = .next (u.respond r) :=
  (step_pending hp).trans h.perform_eq

/-! ### Operations that do not look at the latch -/

theorem readWord_setErr (s : State) (c : ErrCode) {l : WordLoc} (h : l ≠ .status) :
    readWord (s.setErr c) l = readWord s l := by
  cases l
  case status => exact absurd rfl h
  all_goals rfl

theorem readByte_setErr (s : State) (c : ErrCode) (l : ByteLoc) : readByte (s.setErr c) l = readByte s l := by
  cases l <;> rfl

/-- Only the read of `STATUS` shows the latch (rule R33). -/
theorem readResponse_setErr (s : State) (c : ErrCode) {off : BitVec 16} {w : Width}
    (h : HostOp.read off w ≠ .read 0x0008#16 .w4) : readResponse (s.setErr c) off w = readResponse s off w := by
  cases w with
  | w1 => simp only [readResponse, readByte_setErr]
  | w2 => rfl
  | w4 =>
    simp only [readResponse]
    cases hl : locateWord off with
    | none => rfl
    | some l =>
      have hstatus : l ≠ .status := by
        rintro rfl
        exact h (by rw [eq_ofNat_of_toNat (locateWord_eq_some.1 hl)]; rfl)
      simp only [readWord_setErr s c hstatus]

theorem writeByte_setErr (s : State) (c : ErrCode) (v : Byte) (l : ByteLoc) :
    writeByte (s.setErr c) v l = (writeByte s v l).setErr c := by
  cases l <;> rfl

theorem writeSeed_setErr (s : State) (c : ErrCode) (v : Word) :
    ∃ c', writeSeed (s.setErr c) v = (writeSeed s v).setErr c' := by
  unfold writeSeed
  rw [State.setErr_tblv]
  split
  · exact ⟨_, raiseErr_setErr .locked c s⟩
  · exact ⟨c, rfl⟩

theorem writeMlen_setErr (s : State) (c : ErrCode) (v : Word) :
    ∃ c', writeMlen (s.setErr c) v = (writeMlen s v).setErr c' := by
  unfold writeMlen
  split
  · exact ⟨c, rfl⟩
  · exact ⟨_, raiseErr_setErr .range c s⟩

/-- Whether a write is accepted does not depend on the state (rule R72). -/
theorem busWrite_eq_none {s s' : State} {off : BitVec 16} {d : BusData} (h : busWrite s off d = none) :
    busWrite s' off d = none := by
  cases d with
  | b8 v => simpa only [busWrite, Option.map_eq_none_iff] using h
  | b16 v => rfl
  | b32 v =>
    simp only [busWrite, Option.bind_eq_none_iff] at h ⊢
    intro l hl
    have := h l hl
    cases l <;> simp only [writeWord, reduceCtorEq] at this ⊢

/-- An operation handled over another latch leaves a state that differs in the latch at most, and answers the
same unless it reads `STATUS`. -/
theorem Handled.setErr {s u : State} {op : HostOp} {r : Resp} (h : Handled s op u r) (c : ErrCode) :
    ∃ c' r', Handled (s.setErr c) op (u.setErr c') r' ∧ (op ≠ .read 0x0008#16 .w4 → r' = r) := by
  cases h with
  | read off w => exact ⟨c, _, .read off w, readResponse_setErr s c⟩
  | rejected off d hd => exact ⟨c, _, .rejected off d (busWrite_eq_none hd), fun _ => rfl⟩
  | byte off v l hl =>
    exact ⟨c, _, writeByte_setErr s c v l ▸ .byte off v l hl, fun _ => rfl⟩
  | seed v =>
    obtain ⟨c', hc'⟩ := writeSeed_setErr s c v
    exact ⟨c', _, hc' ▸ .seed v, fun _ => rfl⟩
  | klen v => exact ⟨c, _, .klen v, fun _ => rfl⟩
  | mlen v =>
    obtain ⟨c', hc'⟩ := writeMlen_setErr s c v
    exact ⟨c', _, hc' ▸ .mlen v, fun _ => rfl⟩
  | blkHi v => exact ⟨c, _, .blkHi v, fun _ => rfl⟩
  | blkLo v => exact ⟨c, _, .blkLo v, fun _ => rfl⟩
  | illegal w e hw => exact ⟨_, _, by rw [← raiseErr_setErr]; exact .illegal w e hw, fun _ => rfl⟩
  | command w i u hw hu =>
    obtain ⟨t, c', ht, hc'⟩ := LatchBlind.exec i s c
    obtain rfl : t = u := Host.Outcome.next.inj (ht.symm.trans hu)
    exact ⟨c', _, .command w i _ hw hc', fun _ => rfl⟩
  | reset => exact ⟨.ok, _, .reset, fun _ => rfl⟩

/-- States that differ in the latch at most. -/
theorem eq_setErr_of_sameButLatch {s u : State} (h : SameButLatch s u) : u = s.setErr u.err :=
  (congrArg (State.setErr · u.err) h).symm

/-- Settles O53: an operation is handled the same whatever the latch holds. -/
theorem operationsRunTheSameWhateverTheLatch : Obligations.OperationsRunTheSameWhateverTheLatch := by
  intro s u t hsame hstep
  obtain ⟨c, rfl⟩ : ∃ c, u = s.setErr c := ⟨_, eq_setErr_of_sameButLatch hsame⟩
  obtain ⟨hp, rfl⟩ | ⟨op, rest, x, r, hp, hx, rfl⟩ := step_cases hstep
  · exact ⟨t.setErr c, by unfold step advance; rw [State.setErr_pending, hp], rfl, fun _ => rfl⟩
  · obtain ⟨c', r', hx', hr'⟩ := hx.setErr c
    refine ⟨(x.setErr c').respond r', hx'.step_eq (s := s.setErr c) hp, rfl, fun hread => ?_⟩
    have hr : r' = r := hr' fun hop => hread (by rw [hp, hop]; rfl)
    rw [hr, State.respond_responses, State.respond_responses, State.setErr_responses]

end Sys2Proof.Machine
end

section
/-! The registers of spec/10_state.md rules R34 to R43, read and written through the port, and the reset state
of rule R45. -/

namespace Sys2Proof.Machine

open Sys2Proof.Statements

/-! ### `StepsTo` from how an operation is handled -/

/-- An operation handled the same whatever is pending behind it. -/
theorem Handled.stepsTo {s u : State} {op : HostOp} {r : Resp}
    (h : ∀ rest, Handled (s.setPending rest) op (u.setPending rest) r) : StepsTo s op r u := by
  intro rest hp
  have hresp : u.responses = s.responses := (h rest).port.2
  rw [(h rest).step_eq hp, State.respond, State.setPending_responses, hresp]
  rfl

/-- The state an operation leaves, in another form. -/
theorem Handled.of_eq {s u u' : State} {op : HostOp} {r : Resp} (h : Handled s op u r) (e : u = u') :
    Handled s op u' r := e ▸ h

theorem readWord_setPending (s : State) (l : List HostOp) (loc : WordLoc) :
    readWord (s.setPending l) loc = readWord s loc := by
  cases loc <;> rfl

/-- A read of a word location answers what stands there and changes nothing (rule R73). -/
theorem stepsTo_readWord (s : State) (l : WordLoc) :
    StepsTo s (.read (BitVec.ofNat 16 l.offset) .w4) (.word (readWord s l)) s :=
  Handled.stepsTo fun rest => by
    have hread : readResponse (s.setPending rest) (BitVec.ofNat 16 l.offset) .w4 = .word (readWord s l) := by
      simp only [readResponse, locateWord_offset, readWord_setPending]
    exact hread ▸ .read _ _

/-- A write to a read-only word location is not accepted (rule R72 c). -/
theorem stepsTo_write_readOnly (s : State) (l : WordLoc) (v : Word) (h : ∀ s, writeWord s v l = none) :
    StepsTo s (.write (BitVec.ofNat 16 l.offset) (.b32 v)) .busError s :=
  Handled.stepsTo fun _ => .rejected _ _ ((busWrite_offset _ l v).trans (h _))

/-- `raiseErr` is the statements' `latched`. -/
theorem latched_setPending (c : ErrCode) (s : State) (l : List HostOp) :
    (latched c s).setPending l = raiseErr c (s.setPending l) := by
  rw [raiseErr_eq]; rfl

/-! ### `CMD` -/

/-- A write to `CMD` runs the word written, then answers. -/
theorem perform_command (s : State) (w : Word) :
    perform s (.write 0x0004#16 (.b32 w)) = thenRespond .ok (runCommand w s) := by
  have hw : busWrite s 0x0004#16 (.b32 w) = some (runCommand w s) := busWrite_offset s .cmd w
  simp only [perform, hw]

/-- Settles O4: the word is decoded in `runCommand`, and `thenRespond` gives the response. -/
theorem commandWriteRunsTheDecodedCommand : Obligations.CommandWriteRunsTheDecodedCommand := by
  refine ⟨fun s rest w i hp hw => ?_, fun s w e hw => ?_, fun s => stepsTo_readWord s .cmd⟩
  · have hrun : runCommand w (s.setPending rest) = exec i (s.setPending rest) := by simp only [runCommand, hw]
    rw [step_pending hp, perform_command, hrun]
    unfold State.setPending
    cases exec i _ <;> rfl
  · exact Handled.stepsTo fun _ => (Handled.illegal w e hw).of_eq (latched_setPending ..).symm

/-! ### The read-only registers -/

/-- The bits of `STATUS` (rule R37). -/
theorem statusWord_bits (s : State) :
    (statusWord s).getLsbD 0 = s.tblv ∧ (statusWord s).getLsbD 1 = s.rkv ∧
      (statusWord s).extractLsb' 2 6 = 0#6 ∧ (statusWord s).extractLsb' 8 4 = s.err.code ∧
      (statusWord s).extractLsb' 12 20 = 0#20 := by
  unfold statusWord
  generalize s.err.code = e, s.rkv = r, s.tblv = t
  revert e r t
  decide

/-- Settles O9: each register is a word location without a write, and `STATUS` is read bit by bit. -/
theorem readOnlyRegistersReadAndRefuseWrites : Obligations.ReadOnlyRegistersReadAndRefuseWrites := by
  intro s
  refine ⟨stepsTo_readWord s .id, stepsTo_readWord s .cap, stepsTo_readWord s .keyHi, stepsTo_readWord s .keyLo,
    ⟨statusWord s, stepsTo_readWord s .status, ?_⟩, fun v off hoff => ?_⟩
  · obtain ⟨htblv, hrkv, hlow, hcode, hhigh⟩ := statusWord_bits s
    refine ⟨htblv, hrkv, hlow, ?_, hhigh⟩
    rw [hcode]
    cases s.err <;> decide
  · simp only [List.mem_cons, List.not_mem_nil, or_false] at hoff
    obtain rfl | rfl | rfl | rfl | rfl := hoff
    · exact stepsTo_write_readOnly s .id v fun _ => rfl
    · exact stepsTo_write_readOnly s .status v fun _ => rfl
    · exact stepsTo_write_readOnly s .keyHi v fun _ => rfl
    · exact stepsTo_write_readOnly s .keyLo v fun _ => rfl
    · exact stepsTo_write_readOnly s .cap v fun _ => rfl

/-! ### The writable registers -/

/-- Settles O13: the two branches of `writeSeed`. -/
theorem seedWriteIsLockedByTheTables : Obligations.SeedWriteIsLockedByTheTables := by
  intro s v
  refine ⟨stepsTo_readWord s .seed, fun ht => Handled.stepsTo fun _ => ?_, fun ht => Handled.stepsTo fun _ => ?_⟩
  · exact (Handled.seed v).of_eq (if_neg (by simp [ht]))
  · exact (Handled.seed v).of_eq ((if_pos ht).trans (latched_setPending ..).symm)

/-- Settles O14: `writeKlen` stores the clamped value whatever it is. -/
theorem klenWriteIsClampedToEight : Obligations.KlenWriteIsClampedToEight := fun s v =>
  ⟨stepsTo_readWord s .klen, ⟨min v.toNat 8, by omega⟩, rfl, Handled.stepsTo fun _ => .klen v⟩

/-- Settles O15: the two branches of `writeMlen`. -/
theorem mlenWriteIsRangeChecked : Obligations.MlenWriteIsRangeChecked := by
  intro s v
  refine ⟨stepsTo_readWord s .mlen, fun hv => ⟨⟨v.toNat, Nat.lt_succ_of_le hv⟩, rfl, Handled.stepsTo fun _ => ?_⟩,
    fun hv => Handled.stepsTo fun _ => ?_⟩
  · exact (Handled.mlen v).of_eq (dif_pos (Nat.lt_succ_of_le hv))
  · exact (Handled.mlen v).of_eq ((dif_neg (by omega)).trans (latched_setPending ..).symm)

/-- Settles O16: each write joins the value with the half it keeps. -/
theorem blockRegisterHalvesAreIndependent : Obligations.BlockRegisterHalvesAreIndependent := fun s v =>
  ⟨stepsTo_readWord s .blkHi, stepsTo_readWord s .blkLo,
    ⟨v ++ s.blk.extractLsb' 0 32, extract_high_append _ _, extract_low_append _ _, Handled.stepsTo fun _ => .blkHi v⟩,
    ⟨s.blk.extractLsb' 32 32 ++ v, extract_low_append _ _, extract_high_append _ _, Handled.stepsTo fun _ => .blkLo v⟩⟩

/-! ### The reset state -/

/-- The entries of a table of zeros. -/
theorem entries_replicate_zero (w n : Nat) : entries (Vector.replicate n 0#w) = List.replicate n 0 := by
  simp [entries]

/-- Settles O17: the tables are replicated zeros, the other elements are evaluated. -/
theorem resetStateIsAllZero : Obligations.ResetStateIsAllZero := by
  refine ⟨rfl, rfl, fun x hx => ?_, by decide, by decide, rfl, rfl, by decide, rfl, rfl, fun _ => rfl, rfl, rfl⟩
  simp only [State.reset, Tables.zero, entries_replicate_zero, List.mem_append, List.mem_replicate] at hx
  tauto

end Sys2Proof.Machine
end

section
/-! The host port of spec/20_memory.md: which operations it accepts (rules R66, R67 and R72), what its windows read
and write (rules R68 to R74), and the order of the responses (rules R61 and R76). -/

namespace Sys2Proof.Machine

open Sys2Proof.Statements

/-! ### Acceptance -/

/-- The word locations stand exactly at the offsets of rules R66 and R67. -/
theorem locateWord_eq_none {off : BitVec 16} : locateWord off = none ↔ ¬ AcceptsWord off.toNat := by
  simp only [locateWord, Option.orElse_eq_none, Option.map_eq_none_iff, wordIndex_eq_none, AcceptsWord]
  omega

/-- The byte locations stand exactly at the offsets of rules R66 and R67. -/
theorem locateByte_eq_none {off : BitVec 16} : locateByte off = none ↔ ¬ AcceptsByte off.toNat := by
  simp only [locateByte, Option.orElse_eq_none, Option.map_eq_none_iff, byteIndex_eq_none, AcceptsByte]
  omega

theorem readResponse_eq_busError {s : State} {off : BitVec 16} {w : Width} :
    readResponse s off w = .busError ↔ ¬ Accepted (.read off w) := by
  cases w with
  | w1 =>
    refine Iff.trans ?_ locateByte_eq_none
    cases hl : locateByte off <;> simp [readResponse, hl]
  | w2 => exact iff_of_true rfl not_false
  | w4 =>
    refine Iff.trans ?_ locateWord_eq_none
    cases hl : locateWord off <;> simp [readResponse, hl]

/-- A write at an offset of a writable register is not rejected. -/
theorem not_writableWord_of_busWrite {s : State} {off : BitVec 16} {v : Word}
    (h : busWrite s off (.b32 v) = none) : ¬ WritableWord off.toNat := by
  have writable {l : WordLoc} (hoff : off.toNat = l.offset) : writeWord s v l = none := by
    rw [← busWrite_offset, ← eq_ofNat_of_toNat hoff, h]
  rintro (hoff | hoff | hoff | hoff | hoff | hoff)
  · exact nomatch writable (l := .cmd) hoff
  · exact nomatch writable (l := .seed) hoff
  · exact nomatch writable (l := .klen) hoff
  · exact nomatch writable (l := .mlen) hoff
  · exact nomatch writable (l := .blkHi) hoff
  · exact nomatch writable (l := .blkLo) hoff

theorem not_accepted_of_busWrite {s : State} {off : BitVec 16} {d : BusData} (h : busWrite s off d = none) :
    ¬ Accepted (.write off d) := by
  cases d with
  | b8 v => exact locateByte_eq_none.1 (Option.map_eq_none_iff.1 h)
  | b16 v => exact not_false
  | b32 v => exact not_writableWord_of_busWrite h

theorem ByteLoc.accepts_offset (l : ByteLoc) : AcceptsByte l.offset := by
  cases l <;> simp only [AcceptsByte, ByteLoc.offset] <;> omega

/-- `BusError` answers exactly the operations that are not accepted. -/
theorem Handled.busError_iff {s u : State} {op : HostOp} {r : Resp} (h : Handled s op u r) :
    r = .busError ↔ ¬ Accepted op := by
  cases h with
  | read off w => exact readResponse_eq_busError
  | rejected off d hd => exact iff_of_true rfl (not_accepted_of_busWrite hd)
  | byte off v l hl =>
    have : AcceptsByte off.toNat := hl ▸ l.accepts_offset
    simpa [Accepted] using this
  | _ => simp [Accepted, WritableWord]

/-- An operation answered by `BusError` leaves the engine as it was (rule R72). -/
theorem Handled.eq_of_busError {s u : State} {op : HostOp} {r : Resp} (h : Handled s op u r) (hr : r = .busError) :
    u = s := by
  cases h with
  | read off w => rfl
  | rejected off d hd => rfl
  | _ => exact nomatch hr

/-- Every operation can be handled. -/
theorem exists_handled (s : State) (op : HostOp) : ∃ u r, Handled s op u r := by
  obtain ⟨t, ht⟩ := perform_next s op
  obtain ⟨u, r, hu, -⟩ := perform_cases ht
  exact ⟨u, r, hu⟩

/-- The step, from how the operation is handled over the operations behind the next one. -/
theorem Handled.stepsTo_tail {s u : State} {op : HostOp} {r : Resp}
    (h : Handled (s.setPending s.pending.tail) op u r) : StepsTo s op r u := by
  intro rest hp
  obtain rfl : s.pending.tail = rest := by rw [hp, List.tail_cons]
  obtain ⟨hpending, hresponses⟩ := h.port
  rw [State.setPending_pending] at hpending
  rw [State.setPending_responses] at hresponses
  rw [h.step_eq hp, State.respond, ← hpending, ← hresponses]

/-- Settles O7: `Handled.busError_iff` says which operations are answered by `BusError`. -/
theorem acceptanceFollowsTheAddressMap : Obligations.AcceptanceFollowsTheAddressMap := by
  intro s op
  obtain ⟨u, r, h⟩ := exists_handled (s.setPending s.pending.tail) op
  refine ⟨fun hrejected => ?_, fun haccepted => ⟨r, u, fun hr => h.busError_iff.1 hr haccepted, h.stepsTo_tail⟩⟩
  have hr : r = .busError := h.busError_iff.2 hrejected
  obtain rfl := h.eq_of_busError hr
  obtain rfl := hr
  exact h.stepsTo_tail

/-! ### Reads -/

/-- What a read answers depends on the engine alone, not on the two ends of the port. -/
theorem readResponse_port (s : State) (l : List HostOp) (rs : List Resp) (off : BitVec 16) (w : Width) :
    readResponse { s with pending := l, responses := rs } off w = readResponse s off w := by
  have hword (loc : WordLoc) : readWord { s with pending := l, responses := rs } loc = readWord s loc := by
    cases loc <;> rfl
  have hbyte (loc : ByteLoc) : readByte { s with pending := l, responses := rs } loc = readByte s loc := by
    cases loc <;> rfl
  cases w <;> simp only [readResponse, hword, hbyte]

/-- A read is answered by `readResponse` and changes nothing (rule R73). -/
theorem stepsTo_read (s : State) (off : BitVec 16) (w : Width) :
    StepsTo s (.read off w) (readResponse s off w) s :=
  Handled.stepsTo fun rest => readResponse_port s rest s.responses off w ▸ .read off w

/-- Settles O8: the response is `readResponse`, which does not look at the port. -/
theorem readsChangeNothing : Obligations.ReadsChangeNothing := fun s off w =>
  ⟨readResponse s off w, fun l rs => readResponse_port s l rs off w ▸ stepsTo_read _ off w⟩

/-! ### The read-only windows -/

/-- A 4-byte write outside the writable registers is not accepted (rule R72 c). -/
theorem stepsTo_write_of_not_writable (s : State) {off : BitVec 16} (v : Word) (h : ¬ WritableWord off.toNat) :
    StepsTo s (.write off (.b32 v)) .busError s :=
  (acceptanceFollowsTheAddressMap s _).1 h

/-- A read of a word location, from its offset and from what stands there in another form. -/
theorem stepsTo_readWord_of_eq (s : State) {n : Nat} {l : WordLoc} {v : Word} (hoff : n = l.offset)
    (hv : readWord s l = v) : StepsTo s (.read (BitVec.ofNat 16 n) .w4) (.word v) s := by
  subst hoff hv
  exact stepsTo_readWord s l

/-- Word `64b + 16r + c` of the S window (rule R68). -/
theorem readWord_s (s : State) (b : Fin 8) (r : Fin 4) (c : Fin 16) (h : 64 * b.val + 16 * r.val + c.val < 512) :
    readWord s (.s ⟨64 * b + 16 * r + c, h⟩) =
      gated s.tblv ((((s.tables.s.get b).get r).get c).setWidth 32) := by
  have hb : (64 * b.val + 16 * r.val + c.val) / 64 = b := by omega
  have hr : (64 * b.val + 16 * r.val + c.val) / 16 % 4 = r := by omega
  have hc : (64 * b.val + 16 * r.val + c.val) % 16 = c := by omega
  simp only [readWord, hb, hr, hc]
  rfl

/-- Settles O10: every word of a window is a word location, and no register of rule R72 c stands in one. -/
theorem tableWindowsReadTheTables : Obligations.TableWindowsReadTheTables := by
  intro s
  refine ⟨fun k => stepsTo_readWord s (.pc1 k), fun k => stepsTo_readWord s (.pc2 k),
    fun k => stepsTo_readWord s (.shifts k), fun k => stepsTo_readWord s (.e k), fun k => stepsTo_readWord s (.p k),
    fun k => stepsTo_readWord s (.ip k), fun k => stepsTo_readWord s (.ipinv k), fun b r c => ?_,
    fun off v hlow hhigh => stepsTo_write_of_not_writable s v ?_⟩
  · have hk : 64 * b.val + 16 * r.val + c.val < 512 := by omega
    exact stepsTo_readWord_of_eq s rfl (readWord_s s b r c hk)
  · unfold WritableWord
    omega

/-- The first word of a round key (rule R69). -/
theorem readWord_rk_high (s : State) (i : Fin 16) (h : 2 * i.val < 32) :
    readWord s (.rk ⟨2 * i, h⟩) = gated s.rkv (((s.rk.get i).extractLsb' 32 16).setWidth 32) := by
  have hi : 2 * i.val / 2 = i := by omega
  have heven : 2 * i.val % 2 = 0 := by omega
  simp only [readWord, hi, if_pos heven]
  rfl

/-- The second word of a round key (rule R69). -/
theorem readWord_rk_low (s : State) (i : Fin 16) (h : 2 * i.val + 1 < 32) :
    readWord s (.rk ⟨2 * i + 1, h⟩) = gated s.rkv ((s.rk.get i).extractLsb' 0 32) := by
  have hi : (2 * i.val + 1) / 2 = i := by omega
  have hodd : ¬ (2 * i.val + 1) % 2 = 0 := by omega
  simp only [readWord, hi, if_neg hodd]
  rfl

/-- Settles O11: round key `i` stands in words `2i` and `2i + 1` of its window. -/
theorem roundKeyWindowReadsTheRoundKeys : Obligations.RoundKeyWindowReadsTheRoundKeys := by
  intro s
  refine ⟨fun i => ⟨?_, ?_⟩, fun off v hlow hhigh => stepsTo_write_of_not_writable s v ?_⟩
  · have hk : 2 * i.val < 32 := by omega
    have hoff : 0x2000 + 8 * i.val = (WordLoc.rk ⟨_, hk⟩).offset := by simp only [WordLoc.offset]; omega
    exact stepsTo_readWord_of_eq s hoff (readWord_rk_high s i hk)
  · have hk : 2 * i.val + 1 < 32 := by omega
    have hoff : 0x2000 + 8 * i.val + 4 = (WordLoc.rk ⟨_, hk⟩).offset := by simp only [WordLoc.offset]; omega
    exact stepsTo_readWord_of_eq s hoff (readWord_rk_low s i hk)
  · unfold WritableWord
    omega

/-! ### The byte buffers -/

theorem ByteLoc.toNat_offset (l : ByteLoc) : (BitVec.ofNat 16 l.offset).toNat = l.offset := by
  have hlt : l.offset < 2 ^ 16 := by
    cases l <;> simp only [ByteLoc.offset, Config.msgMax] <;> omega
  rw [BitVec.toNat_ofNat, Nat.mod_eq_of_lt hlt]

/-- A read of a byte location answers the byte that stands there. -/
theorem stepsTo_readByte (s : State) (l : ByteLoc) :
    StepsTo s (.read (BitVec.ofNat 16 l.offset) .w1) (.byte (readByte s l)) s := by
  have hread : readResponse s (BitVec.ofNat 16 l.offset) .w1 = .byte (readByte s l) := by
    simp only [readResponse, locateByte_eq_some.2 l.toNat_offset]
  exact hread ▸ stepsTo_read s _ _

/-- A write to a byte location is accepted and writes that byte. -/
theorem stepsTo_writeByte (s : State) (l : ByteLoc) (b : Byte) :
    StepsTo s (.write (BitVec.ofNat 16 l.offset) (.b8 b)) .ok (writeByte s b l) :=
  Handled.stepsTo fun rest =>
    (Handled.byte _ b l l.toNat_offset).of_eq (by cases l <;> rfl)

/-- Settles O12: both buffers are byte locations; `Memory.read_write` says what a write does to every byte. -/
theorem bufferWindowsReadAndWriteBytes : Obligations.BufferWindowsReadAndWriteBytes := by
  intro s hwf
  refine ⟨fun i b => ⟨stepsTo_readByte s (.kbuf i), stepsTo_writeByte s (.kbuf i) b⟩, fun i b =>
    ⟨stepsTo_readByte s (.mbuf i), Memory.write s.mbuf i b, stepsTo_writeByte s (.mbuf i) b,
      Memory.wf_write s.mbuf i b i.isLt hwf, ?_, fun a ha => ?_⟩⟩
  · rw [Memory.read_write s.mbuf i i b ((Memory.wf_iff _).1 hwf).1, if_pos rfl]
  · rw [Memory.read_write s.mbuf i a b ((Memory.wf_iff _).1 hwf).1, if_neg ha.symm]

/-! ### The order of the responses -/

/-- A step takes the next operation off the list and adds one response (rules R61 and R76). -/
theorem step_answers_next {s : State} {op : HostOp} {rest : List HostOp} (hp : s.pending = op :: rest) :
    ∃ u r, step s = .next u ∧ u.pending = rest ∧ u.responses = s.responses ++ [r] := by
  obtain ⟨u, r, h⟩ := exists_handled (s.setPending s.pending.tail) op
  exact ⟨_, r, h.stepsTo_tail rest hp, rfl, rfl⟩

/-- Settles O59, by induction on the operations pending. -/
theorem oneResponsePerOperationInOrder : Obligations.OneResponsePerOperationInOrder := by
  intro s
  generalize hp : s.pending = ops
  induction ops generalizing s with
  | nil => exact ⟨s, [], rfl, hp, (List.append_nil _).symm, rfl, nofun⟩
  | cons op ops ih =>
    obtain ⟨u, r, hstep, hpending, hresponses⟩ := step_answers_next hp
    obtain ⟨t, rs, hrun, hdone, hgiven, hlength, -⟩ := ih u hpending
    refine ⟨t, r :: rs, (run_succ hstep).trans hrun, hdone, ?_, congrArg (· + 1) hlength, ?_⟩
    · rw [hgiven, hresponses, List.append_assoc, List.singleton_append]
    · rintro _ _ ⟨⟩
      exact ⟨u, r, hstep, rfl, hresponses, hpending⟩

end Sys2Proof.Machine
end

section
/-! The command words of spec/30_encoding.md rules R90 to R98: decoding and encoding are inverse to each other, and
every other word is illegal. -/

namespace Sys2Proof

/-- A command's word is cut back into the command's fields. -/
theorem ofWord_encode (i : Instr) : RawCommand.ofWord (encode i) = i.fields := by
  cases i with
  | nop => exact Laws.EncodesItsFields.nop.1
  | gen => exact Laws.EncodesItsFields.gen.1
  | ksched => exact Laws.EncodesItsFields.ksched.1
  | clrerr => exact Laws.EncodesItsFields.clrerr.1
  | blkenc => exact Laws.EncodesItsFields.blkenc.1
  | blkdec => exact Laws.EncodesItsFields.blkdec.1
  | msgenc => exact Laws.EncodesItsFields.msgenc.1
  | msgdec => exact Laws.EncodesItsFields.msgdec.1
  | srst => exact Laws.EncodesItsFields.srst.1

theorem fields_reserved (i : Instr) : i.fields.reserved = 0#23 := by
  cases i <;> rfl

/-- The opcode map selects each command by its fields; `fields_of_selectCommand` is the other direction. -/
theorem selectCommand_fields (i : Instr) : selectCommand i.fields.dir i.fields.opc = some i := by
  cases i <;> rfl

theorem wellFormed_eq_true (i : Instr) : i.wellFormed = true := by
  cases i <;> rfl

/-- The decoder reads every command back from its word; `encode_of_decodeWord` is the other direction. -/
theorem decodeWord_encode (i : Instr) : decodeWord (encode i) = .ok i := by
  simp only [decodeWord, ofWord_encode, fields_reserved, selectCommand_fields, ne_eq, not_true_eq_false, if_false]

theorem decodeWord_eq_ok {w : Word} {i : Instr} : decodeWord w = .ok i ↔ encode i = w :=
  ⟨encode_of_decodeWord, fun h => h ▸ decodeWord_encode i⟩

/-- The commands in the order of rule R93. -/
def commands : List Instr := [.nop, .gen, .ksched, .clrerr, .blkenc, .blkdec, .msgenc, .msgdec, .srst]

theorem mem_commands (i : Instr) : i ∈ commands := by
  cases i <;> decide

/-- Settles O1: the list of rule R93 is that of the commands, each with the word it is encoded in. -/
theorem decodeSelectsExactlyTheNineWords : Obligations.DecodeSelectsExactlyTheNineWords := by
  intro w i
  change _ ↔ (w, i) ∈ commands.map fun j => (encode j, j)
  rw [decodeWord_eq_ok, List.mem_map]
  constructor
  · rintro rfl
    exact ⟨i, mem_commands i, rfl⟩
  · rintro ⟨j, -, hj⟩
    obtain ⟨hw, rfl⟩ := Prod.mk.inj hj
    exact hw

/-- Settles O5: a word that decodes to a command would be one of the nine, and an illegal one is O4's second case. -/
theorem illegalWordOnlyLatchesIllcmd : Obligations.IllegalWordOnlyLatchesIllcmd := by
  obtain ⟨-, hillegal, -⟩ := Machine.commandWriteRunsTheDecodedCommand
  intro s w hw
  cases hd : decodeWord w with
  | error e => exact hillegal s w e hd
  | ok i => exact absurd (List.mem_map_of_mem (f := Prod.fst) ((decodeSelectsExactlyTheNineWords w i).1 hd)) hw

/-- Settles O2: a row of 32 bits is the word itself. -/
theorem encodedCommandDecodesBack : Obligations.EncodedCommandDecodesBack := by
  intro i
  refine ⟨wellFormed_eq_true i, decodeWord_encode i, ?_⟩
  have hmod : (encode i).toNat % 2 ^ 32 = (encode i).toNat := Nat.mod_eq_of_lt (encode i).isLt
  rw [decodeTableWord, if_pos le_rfl, hmod, BitVec.ofNat_toNat, BitVec.setWidth_eq, decodeWord_encode]
  rfl

/-- Settles O3: the legal words are encodings; each illegal one meets the one check that rejects it. -/
theorem wordsWrittenOutDecode : Obligations.WordsWrittenOutDecode :=
  ⟨decodeWord_encode .gen, decodeWord_encode .blkdec, decodeWord_encode .msgenc, decodeWord_encode .srst,
    by decide, by decide, by decide⟩

end Sys2Proof
end

section
/-! The host scripts of spec/30_encoding.md rules R100 and R101: what each pseudo-operation does, one lemma for each,
and the results of those that read. -/

namespace Sys2Proof.Machine

variable {s : State}

/-- `KSCHED` with tables and a key completes. -/
theorem execKsched_completes (ht : s.tblv = true) (hk : s.klen ≠ 0) :
    execKsched s = .next (s.setKeys (deriveKey s.kbuf s.klen)
      (schedule (deriveKey s.kbuf s.klen) s.tables.pc1 s.tables.pc2 Config.shifts)) := by
  unfold execKsched
  rw [if_neg (by simp [ht]), if_neg hk]

/-- A length within the buffer is accepted (rule R40). -/
theorem writeMlen_of_le {v : Word} (h : v.toNat ≤ Config.msgMax) :
    writeMlen s v = s.setMlen ⟨v.toNat, Nat.lt_succ_of_le h⟩ := dif_pos (Nat.lt_succ_of_le h)

/-- The bytes of the derived key are those of `KBUF`, repeated (rule R141). -/
theorem deriveKey_eq {kb : Vector Byte 8} {n : Fin 9} {key : Block}
    (h : ∀ i, i < 8 → kb.toList.getD (i % n.val) 0#8 = blockByte key i) : deriveKey kb n = key :=
  (packBlock_congr h).trans (packBlock_blockByte key)

/-- What a message command leaves in the buffer, in terms of the text that stands there (rules R202 to R208). -/
theorem read_crypt {m : List Byte} (d : Direction) (hwf : Memory.wf s.mbuf = true) (hlen : s.mlen.val = m.length)
    (hread : ∀ x, x < m.length → Memory.read s.mbuf x = m.getD x 0#8) (x : Nat) (hx : x < m.length) :
    Memory.read (crypt d s) x =
      blockByte (feistel s.tables (packBlock fun k => m.getD (8 * (x / 8) + k) 0#8) (keysFor s.rk d)) (x % 8) := by
  have hblocks : x < 8 * blockCount m.length := by unfold blockCount; omega
  have hchunk : memReadPadded s.mbuf (8 * (x / 8)) (chunkLength m.length (x / 8)) =
      packBlock fun k => m.getD (8 * (x / 8) + k) 0#8 := by
    refine packBlock_congr fun k hk => ?_
    unfold chunkLength
    split
    · exact hread _ (by omega)
    · rw [List.getD_eq_default _ _ (by omega)]
  rw [crypt, hlen, read_cryptBlocks _ _ _ _ ((Memory.wf_iff _).1 hwf).1, if_pos ⟨hblocks, hx⟩, hchunk]

end Sys2Proof.Machine

namespace Sys2Proof.Machine.Script

open Sys2Proof.Statements

variable {s u : State}

/-! ### Single lines -/

/-- One operation that is handled the same whatever the two ends of the port hold. -/
theorem Answers.of_handled {op : HostOp} {r : Resp}
    (h : ∀ rest given, Handled { s with pending := rest, responses := given } op
      { u with pending := rest, responses := given } r) : Answers [op] s u [r] :=
  Answers.one fun rest given => (h rest given).perform_eq

/-- `R32` of a word location. -/
theorem answers_r32 (s : State) (l : WordLoc) : Answers [r32 (BitVec.ofNat 16 l.offset)] s s [.word (readWord s l)] :=
  Answers.of_handled fun rest given => by
    have hread : readResponse s (BitVec.ofNat 16 l.offset) .w4 = .word (readWord s l) := by
      simp only [readResponse, locateWord_offset]
    rw [← hread, ← readResponse_port s rest given]
    exact .read _ _

/-- `CMD i`. -/
theorem answers_cmd {i : Instr} (h : ∀ rest given, exec i { s with pending := rest, responses := given } =
    .next { u with pending := rest, responses := given }) : Answers [cmd i] s u [.ok] :=
  Answers.of_handled fun rest given => .command _ i _ (decodeWord_encode i) (h rest given)

/-- `CMD KSCHED` with tables and a key (rule R150). -/
theorem answers_ksched {key : Block} (ht : s.tblv = true) (hk : s.klen ≠ 0) (hkey : deriveKey s.kbuf s.klen = key) :
    Answers [cmd .ksched] s (s.setKeys key (schedule key s.tables.pc1 s.tables.pc2 Config.shifts)) [.ok] := by
  subst hkey
  exact answers_cmd fun rest given =>
    execKsched_completes (s := { s with pending := rest, responses := given }) ht hk

/-- A message command with round keys and a message (rules R209 and R210). -/
theorem answers_messageCommand {i : Instr} {d : Direction} (hi : exec i = messageCommand d) (hr : s.rkv = true)
    (hm : s.mlen ≠ 0) : Answers [cmd i] s (s.setMbuf (crypt d s)) [.ok] :=
  answers_cmd fun rest given => by
    rw [hi]
    exact messageCommand_completes (s := { s with pending := rest, responses := given }) d hr hm

/-! ### Pseudo-operations -/

/-- `SETKEY` loads the first 8 bytes of the key and their number. -/
theorem answers_setKey (s : State) (k : List Byte) (hk : k.length < 2 ^ 32) : ∃ (kb : Vector Byte 8) (n : Fin 9)
    (rs : List Resp), Answers (setKey k) s { s with kbuf := kb, klen := n } rs ∧ n.val = min k.length 8 ∧
      ∀ j, j < n.val → kb.toList[j]? = k[j]? := by
  obtain ⟨kb, hbytes, hkb⟩ := answers_writeBytes_kbuf (k.take 8) s 0 (by simp)
  have hlength : (BitVec.ofNat 32 k.length).toNat = k.length := Nat.mod_eq_of_lt hk
  refine ⟨kb, ⟨min (BitVec.ofNat 32 k.length).toNat 8, by omega⟩, _,
    hbytes.append (Answers.of_handled fun _ _ => .klen _), congrArg (min · 8) hlength, fun j hj => ?_⟩
  replace hj : j < min k.length 8 := by simpa only [hlength] using hj
  have hj8 : j < 8 := by omega
  rw [Vector.getElem?_toList, Vector.getElem?_eq_getElem hj8, hkb j hj8, if_pos (by simp; omega)]
  rw [Nat.sub_zero, List.getD_eq_getElem _ _ (by simp; omega), List.getElem_take, List.getElem?_eq_getElem]

/-- `SETMSG` loads the message and its length. -/
theorem answers_setMsg (s : State) (m : List Byte) (hm : m.length ≤ Config.msgMax) (hwf : Memory.wf s.mbuf = true) :
    ∃ (mb : Memory) (n : Fin (Config.msgMax + 1)) (rs : List Resp),
      Answers (setMsg m) s { s with mbuf := mb, mlen := n } rs ∧ n.val = m.length ∧ Memory.wf mb = true ∧
        ∀ x, x < m.length → Memory.read mb x = m.getD x 0#8 := by
  obtain ⟨mb, hbytes, hmb, hread⟩ := answers_writeBytes_mbuf m s 0 (by omega) hwf
  have hlength : (BitVec.ofNat 32 m.length).toNat = m.length :=
    Nat.mod_eq_of_lt (by unfold Config.msgMax at hm; omega)
  have hle : (BitVec.ofNat 32 m.length).toNat ≤ Config.msgMax := hlength.trans_le hm
  have hset : Answers [w32 0x0014#16 (BitVec.ofNat 32 m.length)] { s with mbuf := mb }
      { s with mbuf := mb, mlen := ⟨_, Nat.lt_succ_of_le hle⟩ } [.ok] :=
    Answers.of_handled fun _ _ => (Handled.mlen _).of_eq (writeMlen_of_le hle)
  refine ⟨mb, _, _, hbytes.append hset, hlength, hmb, fun x hx => ?_⟩
  rw [hread x, if_pos (by omega), Nat.sub_zero]

/-- `GETBLK` reads the two halves of `BLK`. -/
theorem answers_getBlk (s : State) :
    Answers getBlk s s [.word (s.blk.extractLsb' 32 32), .word (s.blk.extractLsb' 0 32)] :=
  (answers_r32 s .blkHi).append (answers_r32 s .blkLo)

/-! ### Results -/

theorem responsesOf_run {ops : List HostOp} {rs : List Resp} (h : Answers ops s u rs) :
    responsesOf (run ops s) = some rs := by
  rw [h.run_eq]; rfl

/-- A script has one response for each line (rule R101). -/
theorem Answers.length_eq {ops : List HostOp} {rs : List Resp} (h : Answers ops s u rs) : rs.length = ops.length := by
  obtain ⟨t, given, hrun, -, hgiven, hlength, -⟩ :=
    oneResponsePerOperationInOrder { s with pending := ops, responses := [] }
  obtain rfl := Host.Outcome.next.inj (h.run_eq.symm.trans hrun)
  rw [← hlength, ← List.nil_append given, ← hgiven]

/-- Reads of bytes of the message buffer give the string of those bytes. -/
theorem bytesRead_mbuf (m : Memory) (n : Nat) :
    bytesRead ((List.range n).map fun i => .byte (Memory.read m i)) = some ((List.range n).map (Memory.read m)) := by
  rw [← bytesRead_map, List.map_map]; rfl

/-- The text that a script ending in `GETMSG n` returns is what the lines before left in the buffer. -/
theorem textResult_append_getMsg {ops : List HostOp} {rs : List Resp} {n : Nat} (h : Answers ops s u rs)
    (hn : n ≤ Config.msgMax) : textResult (ops ++ getMsg n) n s = some ((List.range n).map (Memory.read u.mbuf)) := by
  have hdrop : (ops ++ getMsg n).length - n = rs.length := by simp [getMsg, h.length_eq]
  rw [textResult, responsesOf_run (h.append (answers_getMsg u n hn)), hdrop, Option.bind_some, List.drop_left,
    bytesRead_mbuf]

/-- Settles O50: both scripts are known line by line, and the halves of `BLK` join to `BLK`. -/
theorem scriptReadsGiveTheirResults : Obligations.ScriptReadsGiveTheirResults := by
  refine ⟨blockRead_toNat, fun s => ⟨?_, fun n hn => ?_⟩⟩
  · rw [getBlkResult, responsesOf_run (answers_getBlk s), Option.bind_some, blockRead, halves_append]
  · rw [getMsgResult, responsesOf_run (answers_getMsg s n hn), Option.bind_some, bytesRead_mbuf]

/-! ### Whole messages -/

/-- `SETKEY`, `CMD KSCHED`: the round keys are those of the key's first 8 bytes, repeated (rules R141 and R211). -/
theorem answers_setKey_ksched {k : List Byte} {key : Block} (ht : s.tblv = true) (hk : k ≠ [])
    (hmax : k.length < 2 ^ 32) (hkey : ∀ i, i < 8 → k[i % min k.length 8]? = some (blockByte key i)) :
    ∃ (kb : Vector Byte 8) (n : Fin 9) (rs : List Resp), Answers (setKey k ++ [cmd .ksched]) s
      (({ s with kbuf := kb, klen := n } : State).setKeys key
        (schedule key s.tables.pc1 s.tables.pc2 Config.shifts)) rs := by
  obtain ⟨kb, n, _, hset, hn, hkb⟩ := answers_setKey s k hmax
  have hpos : 0 < n.val := by rw [hn]; have := List.length_pos_iff.2 hk; omega
  have hderive : deriveKey kb n = key := deriveKey_eq fun i hi => by
    rw [List.getD_eq_getElem?_getD, hkb _ (Nat.mod_lt i hpos), hn, hkey i hi, Option.getD_some]
  have hksched := answers_ksched (s := { s with kbuf := kb, klen := n }) ht (Fin.pos_iff_ne_zero.1 hpos) hderive
  exact ⟨kb, n, _, hset.append hksched⟩

/-- `SETMSG` and a message command: what then stands in the buffer (rule R211). -/
theorem answers_setMsg_messageCommand {i : Instr} {d : Direction} {m : List Byte} (hi : exec i = messageCommand d)
    (hwf : Memory.wf s.mbuf = true) (hr : s.rkv = true) (hm : m ≠ []) (hmax : m.length ≤ Config.msgMax) :
    ∃ u rs, Answers (setMsg m ++ [cmd i]) s u rs ∧ ∀ x, x < m.length → Memory.read u.mbuf x =
      blockByte (feistel s.tables (packBlock fun k => m.getD (8 * (x / 8) + k) 0#8) (keysFor s.rk d)) (x % 8) := by
  obtain ⟨mb, n, _, hset, hn, hmb, hread⟩ := answers_setMsg s m hmax hwf
  have hpos : 0 < n.val := hn ▸ List.length_pos_iff.2 hm
  have hcommand := answers_messageCommand (s := { s with mbuf := mb, mlen := n }) hi hr (Fin.pos_iff_ne_zero.1 hpos)
  exact ⟨_, _, hset.append hcommand, read_crypt d hmb hn hread⟩

/-- The text that a whole script returns, `i` being its message command in direction `d` (rules R100 and R211). -/
theorem textResult_message {i : Instr} {d : Direction} {m k : List Byte} {key : Block}
    (hi : exec i = messageCommand d) (hwf : Memory.wf s.mbuf = true) (ht : s.tblv = true) (hm : m ≠ [])
    (hmax : m.length ≤ Config.msgMax) (hk : k ≠ []) (hkmax : k.length < 2 ^ 32)
    (hkey : ∀ i, i < 8 → k[i % min k.length 8]? = some (blockByte key i)) :
    ∃ c, textResult (setKey k ++ [cmd .ksched] ++ setMsg m ++ [cmd i] ++ getMsg m.length) m.length s = some c ∧
      TransformedText s.tables (keysFor (schedule key s.tables.pc1 s.tables.pc2 Config.shifts) d) m c := by
  obtain ⟨kb, n, _, hkeys⟩ := answers_setKey_ksched ht hk hkmax hkey
  obtain ⟨u, _, htext, hread⟩ := answers_setMsg_messageCommand hi
    (s := ({ s with kbuf := kb, klen := n } : State).setKeys key
      (schedule key s.tables.pc1 s.tables.pc2 Config.shifts)) hwf rfl hm hmax
  have hlines := hkeys.append htext
  rw [← List.append_assoc] at hlines
  refine ⟨_, textResult_append_getMsg hlines hmax, by simp, fun x hx => ?_⟩
  rw [List.getElem?_map, List.getElem?_range hx, Option.map_some, hread x hx]
  rfl

/-- Settles O51: the two scripts differ in their message command, and so in the order of the round keys. -/
theorem encryptAndDecryptReturnTheText : Obligations.EncryptAndDecryptReturnTheText := by
  intro s m k key hwf ht hm hmax hk hkmax hkey
  exact ⟨textResult_message (i := .msgenc) (d := .encrypt) rfl hwf ht hm hmax hk hkmax hkey,
    textResult_message (i := .msgdec) (d := .decrypt) rfl hwf ht hm hmax hk hkmax hkey⟩

end Sys2Proof.Machine.Script
end

section
/-! The statements of spec/40_table_generator.md: the generator `LCG32`, `shuffle`, the order of the draws in
`generate` and their number, and `GEN`. -/

namespace Sys2Proof.Machine

open Sys2Proof.Config (Prng lcg32)
open Sys2Proof.Statements

/-! ### Generators in lockstep

`R k g h` relates the states of two generators after `k` draws each. One walk through `generate` then serves the
draw count, with `counted p` beside `p`, and the final state of `LCG32`, with that generator beside itself. -/

/-- Every draw leads from related states to related states and gives both generators the same number. -/
def Lockstep (p q : Prng) (R : Nat → p.St → q.St → Prop) : Prop :=
  ∀ k g h n, R k g h → R (k + 1) (p.below g n).1 (q.below h n).1 ∧ (p.below g n).2 = (q.below h n).2

/-- `f` and `f'` keep related states related over `d` draws and make the same thing. -/
def InStep {σ τ β : Type} (R : Nat → σ → τ → Prop) (d : Nat) (f : σ → σ × β) (f' : τ → τ × β) : Prop :=
  ∀ k g h, R k g h → R (k + d) (f g).1 (f' h).1 ∧ (f g).2 = (f' h).2

theorem InStep.drawMany {σ τ β : Type} {R : Nat → σ → τ → Prop} {d : Nat} {f : σ → σ × β} {f' : τ → τ × β}
    (hf : InStep R d f f') : ∀ n, InStep R (n * d) (drawMany f n) (drawMany f' n)
  | 0, k, g, h, hR => ⟨by simpa [Machine.drawMany] using hR, rfl⟩
  | n + 1, k, g, h, hR => by
    obtain ⟨hstate, hmade⟩ := hf.drawMany n k g h hR
    obtain ⟨hstate', hlast⟩ := hf _ _ _ hstate
    refine ⟨?_, congrArg₂ Vector.push hmade hlast⟩
    rwa [Nat.add_mul, Nat.one_mul, ← Nat.add_assoc]

section
variable {p q : Prng} {R : Nat → p.St → q.St → Prop}

theorem Lockstep.shuffleDown (hR : Lockstep p q R) {α : Type} {n : Nat} : ∀ (i : Nat) (a : Vector α n),
    InStep R i (shuffleDown p i · a) (shuffleDown q i · a)
  | 0, _, _, _, _, h => ⟨h, rfl⟩
  | i + 1, a, k, g, g', h => by
    obtain ⟨hstate, hdraw⟩ := hR k g g' (i + 2) h
    have hrest := hR.shuffleDown i (a.swapIfInBounds (i + 1) (p.below g (i + 2)).2) (k + 1) _ _ hstate
    simp only [Machine.shuffleDown, ← hdraw]
    rwa [Nat.add_assoc, Nat.add_comm 1 i] at hrest

/-- A shuffle of `n` entries is `n - 1` draws (rule R111). -/
theorem Lockstep.shuffle (hR : Lockstep p q R) {α : Type} {n : Nat} (a : Vector α n) :
    InStep R (n - 1) (shuffle p · a) (shuffle q · a) := hR.shuffleDown (n - 1) a

/-- `E` is 31 draws for each of its two copies (rule R115). -/
theorem Lockstep.drawExpansion (hR : Lockstep p q R) : InStep R 62 (drawExpansion p) (drawExpansion q) := by
  intro k g h hk
  obtain ⟨hfirst, hfirstEq⟩ := hR.shuffle (oneUpTo 6 32) k g h hk
  obtain ⟨hsecond, hsecondEq⟩ := hR.shuffle (oneUpTo 6 32) _ _ _ hfirst
  exact ⟨hsecond, by simp only [Machine.drawExpansion, hfirstEq, hsecondEq]⟩

/-- `S` is 15 draws for each of its 32 rows (rule R116). -/
theorem Lockstep.drawSboxes (hR : Lockstep p q R) : InStep R 480 (drawSboxes p) (drawSboxes q) :=
  ((hR.shuffle (zeroUpTo 4 16)).drawMany 4).drawMany 8

/-- `generate` is 809 draws (rule R123). -/
theorem Lockstep.generateRun (hR : Lockstep p q R) {seed : Word} (hseed : R 0 (p.seedInit seed) (q.seedInit seed)) :
    R 809 (generateRun p seed).1 (generateRun q seed).1 ∧ generate p seed = generate q seed := by
  obtain ⟨h, hpc1⟩ := hR.shuffle (oneUpTo 6 56) _ _ _ hseed
  obtain ⟨h, hpc2⟩ := hR.shuffle (oneUpTo 6 56) _ _ _ h
  obtain ⟨h, he⟩ := hR.drawExpansion _ _ _ h
  obtain ⟨h, hs⟩ := hR.drawSboxes _ _ _ h
  obtain ⟨h, hperm⟩ := hR.shuffle (oneUpTo 6 32) _ _ _ h
  obtain ⟨h, hip⟩ := hR.shuffle (oneUpTo 7 64) _ _ _ h
  obtain ⟨h, hipinv⟩ := hR.shuffle (oneUpTo 7 64) _ _ _ h
  exact ⟨h, by simp only [generate, Machine.generateRun, hpc1, hpc2, he, hs, hperm, hip, hipinv]⟩

end

/-- The counting generator is the generator beside a counter. -/
theorem lockstep_counted (p : Prng) (c : Nat) : Lockstep p (counted p) fun k g h => h = (g, c + k) := by
  rintro k g _ n rfl
  exact ⟨rfl, rfl⟩

/-- After `k` draws, whatever they are below, `LCG32` is in the `k`-th state from the seed on (rule R112). -/
theorem lockstep_lcg32 (s : Word) : Lockstep lcg32 lcg32 fun k g h => g = lcgNext^[k] s ∧ h = g := by
  rintro k _ _ n ⟨rfl, rfl⟩
  exact ⟨⟨(Function.iterate_succ_apply' lcgNext k s).symm, rfl⟩, rfl⟩

/-! ### `shuffle` -/

/-- Settles O24: a swap permutes, so the loop does, and the counting generator runs beside the plain one. -/
theorem shufflePermutesWithOneDrawLess : Obligations.ShufflePermutesWithOneDrawLess := by
  intro p g n a _
  refine ⟨shuffle_perm p g a, fun c => ?_⟩
  obtain ⟨hstate, hlist⟩ := (lockstep_counted p c).shuffle a 0 g (g, c) rfl
  exact Prod.ext (hstate.trans (by rw [Nat.zero_add])) hlist.symm

/-- A list with two entries exchanged is the swapped list. -/
theorem swapIfInBounds_eq_of_exchanged {α : Type} {n : Nat} {a b : Vector α n} {i j : Nat} (h : Exchanged a b i j)
    (hi : i < n) (hj : j < n) : a.swapIfInBounds i j = b := by
  refine Vector.ext fun k hk => Option.some.inj ?_
  rw [← Vector.getElem?_eq_getElem, ← Vector.getElem?_eq_getElem, swapIfInBounds_getElem? a i j k hi hj, h k hk]

/-- The loop from index `i` down, along states and lists that make its turns (rule R111). -/
theorem shuffleDown_chain {p : Prng} {α : Type} {n : Nat} {g : Nat → p.St} {b : Nat → Vector α n}
    (hturn : ∀ i, 1 ≤ i → i < n → g (i - 1) = (p.below (g i) (i + 1)).1 ∧
      Exchanged (b i) (b (i - 1)) i (p.below (g i) (i + 1)).2) :
    ∀ i, i < n → shuffleDown p i (g i) (b i) = (g 0, b 0)
  | 0, _ => rfl
  | i + 1, hi => by
    obtain ⟨hg, hb⟩ : g i = (p.below (g (i + 1)) (i + 2)).1 ∧
      Exchanged (b (i + 1)) (b i) (i + 1) (p.below (g (i + 1)) (i + 2)).2 := hturn (i + 1) (by omega) hi
    have hdraw : (p.below (g (i + 1)) (i + 2)).2 < n := (p.below_lt _ _ (by omega)).trans_le hi
    rw [shuffleDown, swapIfInBounds_eq_of_exchanged hb hi hdraw, ← hg]
    exact shuffleDown_chain hturn i (by omega)

/-- Settles O25: induction on the index, whose draw is in range by rule R110. -/
theorem shuffleFollowsTheLoop : Obligations.ShuffleFollowsTheLoop := by
  intro p α n g b hn hturn
  exact shuffleDown_chain hturn (n - 1) (by omega)

/-! ### The order of the draws -/

/-- A table is known by its entries as numbers. -/
theorem entries_injective {w n : Nat} {t u : Vector (BitVec w) n} (h : entries t = entries u) : t = u :=
  Vector.toList_inj.1 (List.map_injective_iff.2 (fun _ _ => BitVec.eq_of_toNat_eq) h)

section
variable {p : Prng} {w n : Nat} {g g' : p.St} {t : Vector (BitVec w) n}

theorem shuffle_oneUpTo_of_draws (h : Draws p 1 g g' t) (hn : n < 2 ^ w) : shuffle p g (oneUpTo w n) = (g', t) := by
  obtain ⟨up, hup, hshuffle⟩ := h
  rwa [entries_injective ((entries_oneUpTo w n hn).trans hup.symm)]

theorem shuffle_zeroUpTo_of_draws (h : Draws p 0 g g' t) (hn : n ≤ 2 ^ w) : shuffle p g (zeroUpTo w n) = (g', t) := by
  obtain ⟨up, hup, hshuffle⟩ := h
  rw [← List.range_eq_range'] at hup
  rwa [entries_injective ((entries_zeroUpTo w n hn).trans hup.symm)]

end

/-- Many draws along a known chain of states make the entries of a known vector. -/
theorem drawMany_eq_of_chain {σ β : Type} {f : σ → σ × β} {h : Nat → σ} {k n : Nat} {v : Vector β n}
    (hf : ∀ i : Fin n, f (h (k + i)) = (h (k + i + 1), v.get i)) : drawMany f n (h k) = (h (k + n), v) := by
  have hmade (i : Nat) (hi : i < n) : f (h (k + i)) = (h (k + i + 1), (f (h (k + i))).2) := by
    rw [hf ⟨i, hi⟩]
  rw [drawMany_chain f h k _ n hmade]
  refine Prod.ext rfl (Vector.ext fun i hi => ?_)
  rw [Vector.getElem_ofFn, hf ⟨i, hi⟩, Vector.get_eq_getElem]

/-- The rows of `S`, box outer and row inner (rule R116). -/
theorem drawSboxes_eq {p : Prng} {h : Nat → p.St} {s : Vector (Vector (Vector (BitVec 4) 16) 4) 8}
    (hrow : ∀ (b : Fin 8) (r : Fin 4), Draws p 0 (h (4 * b + r)) (h (4 * b + r + 1)) ((s.get b).get r)) :
    drawSboxes p (h 0) = (h 32, s) := by
  have hbox (b : Fin 8) : drawMany (fun g => shuffle p g (zeroUpTo 4 16)) 4 (h (4 * b)) =
      (h (4 * b + 4), s.get b) :=
    drawMany_eq_of_chain fun r => shuffle_zeroUpTo_of_draws (hrow b r) (by decide)
  refine drawMany_eq_of_chain (h := fun b => h (4 * b)) (k := 0) fun b => ?_
  rw [Nat.zero_add]
  exact hbox b

/-- Settles O26: each table along the chain is the shuffle that `generate` makes of its fresh range. -/
theorem generateDrawsTheTablesInOrder : Obligations.GenerateDrawsTheTablesInOrder := by
  intro p seed g1 g2 g3 g5 g6 g7 h pc1 pc2 first second perm s ip ipinv hpc1 hpc2 hfirst hsecond hrow hperm hip hipinv
  have he : drawExpansion p g2 = (h 0, Vector.ofFn fun i : Fin 48 => (first ++ second)[i.val]) := by
    rw [drawExpansion, shuffle_oneUpTo_of_draws hfirst (by decide), shuffle_oneUpTo_of_draws hsecond (by decide)]
  have hrun : generateRun p seed =
      (g7, ⟨pc1, pc2, Vector.ofFn fun i : Fin 48 => (first ++ second)[i.val], s, perm, ip, ipinv⟩) := by
    rw [generateRun, shuffle_oneUpTo_of_draws hpc1 (by decide), shuffle_oneUpTo_of_draws hpc2 (by decide), he, drawSboxes_eq hrow,
      shuffle_oneUpTo_of_draws hperm (by decide), shuffle_oneUpTo_of_draws hip (by decide), shuffle_oneUpTo_of_draws hipinv (by decide)]
  simp only [generate, hrun, true_and, and_true]
  exact entries_append_cut first second (by decide)

/-! ### Legal tables -/

/-- In a legal `E` an index of the first copy is there once more exactly when the second copy has it. -/
theorem Tables.Legal.count_e {t : Tables} (ht : t.Legal) {x : Nat} (h1 : 1 ≤ x) (h32 : x ≤ 32) :
    (entries t.e).count x = if x ∈ (entries t.e).drop 32 then 2 else 1 := by
  have hx : x ∈ List.range' 1 32 := List.mem_range'_1.2 ⟨h1, by omega⟩
  have hfirst : ((entries t.e).take 32).count x = 1 := by
    rw [ht.eFirst.count_eq, List.count_eq_one_of_mem List.nodup_range' hx]
  have hsplit : (entries t.e).count x = 1 + ((entries t.e).drop 32).count x := by
    rw [← hfirst, ← List.count_append, List.take_append_drop]
  rw [hsplit]
  split
  · next hmem => rw [List.count_eq_one_of_mem ht.eSecondDistinct hmem]
  · next hmem => rw [List.count_eq_zero_of_not_mem hmem]

/-- The indices that a legal `E` has twice are those of its second copy. -/
theorem Tables.Legal.twice_perm {t : Tables} (ht : t.Legal) :
    ((List.range' 1 32).filter fun x => (entries t.e).count x = 2).Perm ((entries t.e).drop 32) := by
  refine (List.perm_ext_iff_of_nodup ((List.nodup_range').filter _) ht.eSecondDistinct).2 fun x => ?_
  rw [List.mem_filter, List.mem_range'_1, decide_eq_true_eq]
  constructor
  · rintro ⟨⟨h1, h32⟩, hcount⟩
    rw [ht.count_e h1 (by omega)] at hcount
    by_contra hx
    simp [hx] at hcount
  · intro hx
    obtain ⟨h1, h32⟩ := ht.eSecondRange x hx
    exact ⟨⟨h1, by omega⟩, by rw [ht.count_e h1 h32, if_pos hx]⟩

/-- Settles O27: legality is `generate_legal`, and the counts in `E` follow from it. -/
theorem generatedTablesAreLegal : Obligations.GeneratedTablesAreLegal := by
  intro p seed
  have hlegal := generate_legal p seed
  refine ⟨hlegal, fun x h1 h32 => ?_, ?_⟩
  · rw [hlegal.count_e h1 h32]
    split
    · exact .inr rfl
    · exact .inl rfl
  · rw [hlegal.twice_perm.length_eq]
    simp [entries]

/-! ### The number of draws -/

/-- The 809th state of `LCG32` from the seed 42 on (rule R123). -/
theorem lcgNext_iterate_809 : lcgNext^[809] 42#32 = 0x231D9569#32 := by decide +kernel

/-- Settles O28: `generate` in lockstep, once with the counting generator and once along the states of `LCG32`. -/
theorem generateMakesEightHundredNineDraws : Obligations.GenerateMakesEightHundredNineDraws := by
  constructor
  · intro p seed
    obtain ⟨hstate, htables⟩ := (lockstep_counted p 0).generateRun (seed := seed) rfl
    exact Prod.ext hstate htables.symm
  · obtain ⟨⟨hstate, -⟩, -⟩ := (lockstep_lcg32 42#32).generateRun (seed := 42#32) ⟨rfl, rfl⟩
    exact hstate.trans lcgNext_iterate_809

/-! ### `GEN` and `LCG32` -/

/-- Settles O22: the two branches of `GEN`. -/
theorem genGeneratesTheTablesOnce : Obligations.GenGeneratesTheTablesOnce := by
  refine ⟨decodeWord_encode .gen, fun s => ⟨fun ht => ?_, fun ht => ?_⟩⟩
  · change execGen s = _
    rw [execGen, if_neg (by simp [ht])]
    rfl
  · change execGen s = _
    rw [execGen, if_pos ht, refuse, raiseErr_eq]
    rfl

/-- Settles O23: the functions of `LCG32` are the rule's formula, and the two draws evaluate. -/
theorem lcgDrawsFollowTheFormula : Obligations.LcgDrawsFollowTheFormula := by
  refine ⟨rfl, fun _ => rfl, fun s n _ => ⟨lcgNext s, lcgNext_toNat s, rfl⟩, ?_, ?_⟩
  · decide
  · decide

end Sys2Proof.Machine
end

section
/-! Key derivation, the key schedule and `KSCHED` (spec/41_key_schedule.md rules R140 to R151). -/

namespace Sys2Proof.Machine

open Sys2Proof.Statements

/-! ### The derived key -/

/-- Rule R141, byte by byte. -/
theorem blockByte_deriveKey (kb : Vector Byte 8) (n : Fin 9) {i : Nat} (h : i % n.val < 8) (hi : i < 8) :
    blockByte (deriveKey kb n) i = kb[i % n.val] := by
  rw [deriveKey, blockByte_packBlock _ _ hi, List.getD_eq_getElem _ _ (by simpa using h), Vector.getElem_toList]

/-- Settles O30: `blockByte_deriveKey`. -/
theorem derivedKeyRepeatsTheKeyBytes : Obligations.DerivedKeyRepeatsTheKeyBytes :=
  fun kb n _ _ h hi => blockByte_deriveKey kb n h hi

/-- Settles O31: with all eight bytes, byte `i` of the key is `ext[i]`, which is the byte the shorter key repeats. -/
theorem shortKeyEqualsItsCyclicExtension : Obligations.ShortKeyEqualsItsCyclicExtension := by
  intro kb ext n _ hext
  refine deriveKey_eq fun i hi => ?_
  have hmod : i % n.val < 8 := (Nat.mod_le _ _).trans_lt hi
  have hall : i % (8 : Fin 9).val = i := Nat.mod_eq_of_lt hi
  rw [hall, List.getD_eq_getElem _ _ (by simpa using hi), Vector.getElem_toList, hext i hi hmod,
    blockByte_deriveKey kb n hmod hi]

/-! ### The halves -/

/-- One round rotates by its shift (rules R145 and R146). -/
theorem halvesAfter_succ (shifts : Vector Nat 16) (cd : KeyHalf × KeyHalf) {r : Nat} (h : r < 16) :
    halvesAfter shifts cd (r + 1) =
      (rotl (halvesAfter shifts cd r).1 shifts[r], rotr (halvesAfter shifts cd r).2 shifts[r]) := by
  rw [halvesAfter, List.getD_eq_getElem _ _ (by simpa using h), Vector.getElem_toList]

/-- Settles O33: a round adds its shift to the sum, since rotations in a row add up. -/
theorem keyHalvesAccumulateTheShifts : Obligations.KeyHalvesAccumulateTheShifts := by
  intro shifts c d r hr
  induction r with
  | zero => simp [halvesAfter, rotl_zero, rotr_zero]
  | succ r ih =>
    have hsum : (shifts.toList.take (r + 1)).sum = (shifts.toList.take r).sum + shifts[r] := by
      rw [List.sum_take_succ _ _ (by simpa using hr), Vector.getElem_toList]
    rw [halvesAfter_succ _ _ hr, ih (by omega), hsum, rotl_add, rotr_add]

/-- Halves that begin as `cd` and follow the rounds are those of the schedule. -/
theorem halvesAfter_eq_of_rounds {shifts : Vector Nat 16} {cd : KeyHalf × KeyHalf} {c d : Nat → KeyHalf}
    (h0 : cd = (c 0, d 0))
    (hround : ∀ (r : Nat) (_ : r < 16), c (r + 1) = rotl (c r) shifts[r] ∧ d (r + 1) = rotr (d r) shifts[r]) :
    ∀ r, r ≤ 16 → halvesAfter shifts cd r = (c r, d r)
  | 0, _ => h0
  | r + 1, hr => by
    rw [halvesAfter_succ _ _ hr, halvesAfter_eq_of_rounds h0 hround r (by omega), (hround r hr).1, (hround r hr).2]

/-- The halves of rule R144 from their bits. -/
theorem initialHalves_eq_of_bit {k : Block} {pc1 : Vector (BitVec 6) 56} {c d : KeyHalf}
    (hc : ∀ i, 1 ≤ i → i ≤ 28 → ∀ h : i - 1 < 56, bit c i = bit k (pc1[i - 1]).toNat)
    (hd : ∀ i, 1 ≤ i → i ≤ 28 → ∀ h : i + 27 < 56, bit d i = bit k (pc1[i + 27]).toNat) :
    initialHalves k pc1 = (c, d) := by
  refine Prod.ext (eq_of_bit fun i h1 h28 => ?_) (eq_of_bit fun i h1 h28 => ?_)
  · obtain ⟨j, rfl⟩ := Nat.exists_eq_add_of_le' h1
    rw [bit_initialHalves_fst k pc1 j h28, hc _ h1 h28 (by omega)]
    rfl
  · obtain ⟨j, rfl⟩ := Nat.exists_eq_add_of_le' h1
    rw [bit_initialHalves_snd k pc1 j h28, hd _ h1 h28 (by omega)]
    rfl

/-! ### The round keys -/

/-- A round key is `PC2` of the halves after its round (rule R148). -/
theorem schedule_get (k : Block) (pc1 pc2 : Vector (BitVec 6) 56) (shifts : Vector Nat 16) (r : Fin 16) :
    (schedule k pc1 pc2 shifts).get r =
      sel ((halvesAfter shifts (initialHalves k pc1) (r.val + 1)).1 ++
        (halvesAfter shifts (initialHalves k pc1) (r.val + 1)).2) (pc2Used pc2) := by
  rw [schedule, Vector.get_eq_getElem, Vector.getElem_ofFn]

/-- Settles O32: the given halves are those of the schedule (`halvesAfter_eq_of_rounds`), whose round keys
`bit_schedule` reads bit by bit. -/
theorem scheduleFollowsTheRounds : Obligations.ScheduleFollowsTheRounds := by
  intro k pc1 pc2 shifts c d hc hd hround r i h h1 h48
  have hhalves := halvesAfter_eq_of_rounds (initialHalves_eq_of_bit hc hd) hround (r.val + 1) r.isLt
  obtain ⟨j, rfl⟩ := Nat.exists_eq_add_of_le' h1
  rw [bit_schedule k pc1 pc2 shifts r j h48, hhalves]
  rfl

/-- Settles O35: the default shifts add up to 28, a whole turn. -/
theorem defaultShiftsReturnTheHalves : Obligations.DefaultShiftsReturnTheHalves := by
  intro k pc1 pc2
  have hsum : (Config.shifts.toList.take 16).sum = 28 := by decide
  have hlast : (15 : Fin 16).val + 1 = 16 := rfl
  rw [schedule_get, hlast, keyHalvesAccumulateTheShifts _ _ _ 16 le_rfl, hsum, ← rotl_mod, ← rotr_mod, Nat.mod_self,
    rotl_zero, rotr_zero]

/-- Every position of the halves after `r` rounds holds the key bit that one entry of `PC1` names. -/
theorem bit_halvesAfter (pc1 : Vector (BitVec 6) 56) (shifts : Vector Nat 16) {r p : Nat} (hr : r ≤ 16)
    (h1 : 1 ≤ p) (h56 : p ≤ 56) : ∃ j : Fin 56, ∀ k : Block,
      bit ((halvesAfter shifts (initialHalves k pc1) r).1 ++ (halvesAfter shifts (initialHalves k pc1) r).2) p =
        bit k (pc1.get j).toNat := by
  by_cases hp : p ≤ 28
  · have hj : (p - 1 + (shifts.toList.take r).sum) % 28 < 28 := Nat.mod_lt _ (by decide)
    refine ⟨⟨_, hj.trans (by decide)⟩, fun k => ?_⟩
    rw [keyHalvesAccumulateTheShifts _ _ _ r hr, bit_append, if_pos hp, bit_rotl _ _ _ h1 hp,
      bit_initialHalves_fst k pc1 _ hj]
  · obtain ⟨j, hj1, hj28, hj⟩ := position_from (shifts.toList.take r).sum (p - 28) (by omega) (by omega)
    obtain ⟨j, rfl⟩ := Nat.exists_eq_add_of_le' hj1
    refine ⟨⟨j + 28, by omega⟩, fun k => ?_⟩
    rw [keyHalvesAccumulateTheShifts _ _ _ r hr, bit_append, if_neg hp, ← hj, bit_rotr _ _ _ hj1 hj28,
      bit_initialHalves_snd k pc1 j hj28]

/-- Settles O36: `PC2` names a position of the halves, and that position holds one key bit (`bit_halvesAfter`). -/
theorem roundKeyBitsAreKeyBits : Obligations.RoundKeyBitsAreKeyBits := by
  intro pc1 pc2 shifts hpc1 hpc2 r i h1 h48
  obtain ⟨i, rfl⟩ := Nat.exists_eq_add_of_le' h1
  obtain ⟨hp1, hp56⟩ := hpc2 ⟨i, by omega⟩
  obtain ⟨j, hj⟩ := bit_halvesAfter pc1 shifts r.isLt hp1 hp56
  obtain ⟨hq1, hq56⟩ := hpc1 j
  exact ⟨_, hq1, hq56, fun k => (bit_schedule k pc1 pc2 shifts r i h48).trans (hj k)⟩

/-! ### The eighth key byte -/

/-- Keys with the same bits at the positions that `PC1` names have the same round keys (rule R143). -/
theorem schedule_congr {k l : Block} {pc1 : Vector (BitVec 6) 56}
    (h : ∀ i : Fin 56, bit k (pc1.get i).toNat = bit l (pc1.get i).toNat) (pc2 : Vector (BitVec 6) 56)
    (shifts : Vector Nat 16) : schedule k pc1 pc2 shifts = schedule l pc1 pc2 shifts := by
  have hsel : sel k pc1 = sel l pc1 := congrArg BitVec.ofFnBE (funext h)
  rw [schedule, schedule, initialHalves, initialHalves, hsel]

/-- Blocks with the same first seven bytes have the same bits 1 to 56. -/
theorem bit_eq_of_blockByte {k l : Block} (h : ∀ j, j < 7 → blockByte k j = blockByte l j) {i : Nat}
    (h1 : 1 ≤ i) (h56 : i ≤ 56) : bit k i = bit l i := by
  rw [bit_block k i h1 (by omega), bit_block l i h1 (by omega), h _ (by omega)]

/-- The last of eight key bytes is the last byte of the key only (rule R141). -/
theorem blockByte_deriveKey_set_seven (kb : Vector Byte 8) (b : Byte) {j : Nat} (hj : j < 7) :
    blockByte (deriveKey (kb.set 7 b) 8) j = blockByte (deriveKey kb 8) j := by
  have hmod : j % (8 : Fin 9).val = j := Nat.mod_eq_of_lt (by omega)
  rw [blockByte_deriveKey _ _ (by omega) (by omega), blockByte_deriveKey _ _ (by omega) (by omega),
    Vector.getElem_set_ne _ _ (by omega)]

/-- Settles O37: the two derived keys agree in their first seven bytes, and `PC1` names bits of these only. -/
theorem eighthKeyByteIsDead : Obligations.EighthKeyByteIsDead := by
  intro s b ht hlen hpc1
  have hklen : s.klen = 8 := Fin.ext hlen
  have hkey : s.klen ≠ 0 := hklen ▸ by decide
  refine ⟨_, _, execKsched_completes ht hkey,
    execKsched_completes (s := { s with kbuf := s.kbuf.set 7 b }) ht hkey, ?_⟩
  refine schedule_congr (fun i => ?_) s.tables.pc2 Config.shifts
  obtain ⟨h1, h56⟩ := hpc1 i
  rw [hklen]
  exact bit_eq_of_blockByte (fun j hj => blockByte_deriveKey_set_seven s.kbuf b hj) h1 h56

/-! ### The command -/

/-- A refused operation leaves the statements' `latched` state (rule R236). -/
theorem refuse_eq_latched (c : ErrCode) (s : State) : refuse c s = .next (latched c s) :=
  congrArg Host.Outcome.next (raiseErr_eq s c)

/-- Settles O29: the three branches of `KSCHED`. -/
theorem kschedBuildsTheRoundKeys : Obligations.KschedBuildsTheRoundKeys := by
  refine ⟨decodeWord_encode .ksched, fun s => ⟨fun ht => ?_, fun ht hk => ?_, fun ht hk => ?_⟩⟩
  · change execKsched s = _
    rw [execKsched, if_pos ht, refuse_eq_latched]
  · change execKsched s = _
    rw [execKsched, if_neg (by simp [ht]), if_pos (Fin.ext hk), refuse_eq_latched]
  · exact execKsched_completes ht fun h => hk (congrArg Fin.val h)

end Sys2Proof.Machine
end

section
/-! The round function `F`, bit by bit (spec/42_round_function.md rules R160 to R168). -/

namespace Sys2Proof.Machine

/-! ### Expansion and key mixing -/

theorem bit_xor {n : Nat} (s t : BitVec n) (i : Nat) : bit (s ^^^ t) i = (bit s i ^^ bit t i) := by
  rw [bit, BitVec.getLsbD_xor, Bool.and_xor_distrib_left, ← bit, ← bit]

/-- Rules R161 and R162: bit `i` of `X` is bit `E[i]` of `R` xored with bit `i` of `K`. -/
theorem bit_mixedHalf (t : Tables) (r : Half) (k : RoundKey) (i : Fin 48) :
    bit (mixedHalf t r k) (i.val + 1) = (bit r (t.e.get i).toNat ^^ bit k (i.val + 1)) := by
  rw [mixedHalf, bit_xor, bit_sel _ _ _ i.isLt]

/-- The bits of rules R161 and R162 determine `X`. -/
theorem mixedHalf_eq_of_bit {t : Tables} {r : Half} {k x : RoundKey}
    (h : ∀ i : Fin 48, bit x (i.val + 1) = (bit r (t.e.get i).toNat ^^ bit k (i.val + 1))) :
    mixedHalf t r k = x := by
  refine eq_of_bit fun i h1 h48 => ?_
  obtain ⟨i, rfl⟩ := Nat.exists_eq_add_of_le' h1
  exact (bit_mixedHalf t r k ⟨i, h48⟩).trans (h ⟨i, h48⟩).symm

/-! ### Row, column and substitution -/

theorem getLsbD_sixBits (x : RoundKey) (g : Nat) {j : Nat} (hj : j < 6) :
    (sixBits x g).getLsbD j = x.getLsbD (42 - 6 * g + j) := by
  rw [sixBits, BitVec.getLsbD_extractLsb', decide_eq_true hj, Bool.true_and]

/-- Rule R164: the row is the number that the outer two bits of a group write. -/
theorem toNat_rowOf (b : BitVec 6) : (rowOf b).toNat = 2 * (b.getLsbD 5).toNat + (b.getLsbD 0).toNat := by
  decide +revert

/-- Rules R164 and R168: the row of group `g` in bits of `X`. -/
theorem toNat_rowOf_sixBits (x : RoundKey) (g : Fin 8) :
    (rowOf (sixBits x g.val)).toNat =
      2 * (x.getLsbD (47 - 6 * g.val)).toNat + (x.getLsbD (42 - 6 * g.val)).toNat := by
  rw [toNat_rowOf, getLsbD_sixBits x _ (by decide), getLsbD_sixBits x _ (by decide),
    show 42 - 6 * g.val + 5 = 47 - 6 * g.val by omega, Nat.add_zero]

/-- Rule R164: the column is the inner four bits of a group, which are four bits of `X` in a row. -/
theorem colOf_sixBits (x : RoundKey) (g : Fin 8) :
    colOf (sixBits x g.val) = x.extractLsb' (43 - 6 * g.val) 4 := by
  refine BitVec.eq_of_getLsbD_eq fun i hi => ?_
  rw [colOf, BitVec.getLsbD_extractLsb', BitVec.getLsbD_extractLsb', getLsbD_sixBits x _ (by omega),
    show 42 - 6 * g.val + (1 + i) = 43 - 6 * g.val + i by omega]

/-- Rules R164 and R168: the column of group `g` as a number. -/
theorem toNat_colOf_sixBits (x : RoundKey) (g : Fin 8) :
    (colOf (sixBits x g.val)).toNat = x.toNat / 2 ^ (43 - 6 * g.val) % 16 := by
  rw [colOf_sixBits, BitVec.extractLsb'_toNat, Nat.shiftRight_eq_div_pow]

/-- Rule R165: the box entry of group `g` at the row and the column of rule R168. -/
theorem substitute_eq (t : Tables) {x : RoundKey} {g : Fin 8} {row : Fin 4} {col : Fin 16}
    (hrow : row.val = 2 * (x.getLsbD (47 - 6 * g.val)).toNat + (x.getLsbD (42 - 6 * g.val)).toNat)
    (hcol : col.val = (x.toNat / 2 ^ (43 - 6 * g.val)) % 16) :
    substitute t x g = ((t.s.get g).get row).get col := by
  have hr : (rowOf (sixBits x g.val)).toFin = row := Fin.ext ((toNat_rowOf_sixBits x g).trans hrow.symm)
  have hc : (colOf (sixBits x g.val)).toFin = col := Fin.ext ((toNat_colOf_sixBits x g).trans hcol.symm)
  rw [substitute, hr, hc]

/-! ### The whole function -/

/-- Settles O38: `P` names bit `q` of group `g` of the substituted half, and that group is the box entry which `X`,
fixed by its bits, selects. -/
theorem roundFunctionBits : Obligations.RoundFunctionBits := by
  intro t r k x hx i g q hp h1 h4 row col hrow hcol
  calc bit (roundFunction t r k) (i.val + 1)
      = bit (substituted t x) (4 * g.val + q) := by
        rw [bit_roundFunction _ _ _ _ i.isLt, mixedHalf_eq_of_bit hx, ← hp]
    _ = bit (substitute t x g) q := bit_substituted t x g q h1 h4
    _ = bit (((t.s.get g).get row).get col) q := by rw [substitute_eq t hrow hcol]

end Sys2Proof.Machine
end

section
/-! The sixteen rounds, their symmetry, the block commands, and equal blocks of a message (spec/43_feistel_block.md
rules R180 to R189). -/

namespace Sys2Proof.Machine

open Sys2Proof.Statements

/-! ### The rounds -/

/-- Halves that follow rule R182 are those of the rounds. -/
theorem foldl_feistelRound_eq_of_rounds {t : Tables} {ks : Vector RoundKey 16} {l r : Nat → Half}
    (hround : ∀ (i : Nat) (h : i < 16), l (i + 1) = r i ∧ r (i + 1) = l i ^^^ roundFunction t (r i) ks[i]) :
    ∀ i, i ≤ 16 → (ks.toList.take i).foldl (feistelRound t) (l 0, r 0) = (l i, r i)
  | 0, _ => rfl
  | i + 1, hi => by
    obtain ⟨hl, hr⟩ := hround i hi
    rw [List.take_succ_eq_append_getElem (by simpa using hi), List.foldl_append,
      foldl_feistelRound_eq_of_rounds hround i (by omega), hl, hr, Vector.getElem_toList]
    rfl

/-- Settles O39: the given halves are those of the rounds (`foldl_feistelRound_eq_of_rounds`). -/
theorem feistelFollowsTheRounds : Obligations.FeistelFollowsTheRounds := by
  intro t b ks l r hl hr hround
  have hrounds := foldl_feistelRound_eq_of_rounds hround 16 le_rfl
  rw [List.take_of_length_le (by simp)] at hrounds
  rw [feistel_eq, ← hl, ← hr, hrounds]

/-! ### The symmetry -/

/-- The rounds under the reversed keys take the swapped result back to the swapped input: the last key undoes the
last round first (`feistelRound_swap`). -/
theorem foldl_feistelRound_reverse_swap (t : Tables) (ks : List RoundKey) (lr : Half × Half) :
    ks.reverse.foldl (feistelRound t) (ks.foldl (feistelRound t) lr).swap = lr.swap := by
  induction ks generalizing lr with
  | nil => rfl
  | cons k ks ih =>
    rw [List.reverse_cons, List.foldl_append, List.foldl_cons (l := ks), ih]
    exact feistelRound_swap t lr k

/-- The halves of the output are those after the rounds, swapped (rule R184). -/
theorem halves_feistel (t : Tables) (b : Block) (ks : List RoundKey) :
    ((feistel t b ks).extractLsb' 32 32, (feistel t b ks).extractLsb' 0 32) =
      (ks.foldl (feistelRound t) (b.extractLsb' 32 32, b.extractLsb' 0 32)).swap := by
  rw [feistel_eq, extract_high_append, extract_low_append]
  rfl

/-- Rule R186, for any number of keys. -/
theorem feistel_reverse (t : Tables) (b : Block) (ks : List RoundKey) :
    feistel t (feistel t b ks) ks.reverse = b := by
  rw [feistel_eq, halves_feistel, foldl_feistelRound_reverse_swap]
  exact halves_append b

/-- Rule R186: the engine is a bijection, with the reversed keys as its inverse on both sides. -/
theorem feistel_bijective (t : Tables) (ks : List RoundKey) : Function.Bijective fun b => feistel t b ks := by
  refine Function.bijective_iff_has_inverse.2 ⟨fun b => feistel t b ks.reverse, fun b => ?_, fun b => ?_⟩
  · exact feistel_reverse t b ks
  · simpa only [List.reverse_reverse] using feistel_reverse t b ks.reverse

/-- Settles O40: `feistel_reverse` and `feistel_bijective`. -/
theorem feistelSymmetry : Obligations.FeistelSymmetry := fun t ks =>
  ⟨fun b => feistel_reverse t b ks.toList, feistel_bijective t ks.toList⟩

/-! ### The block commands -/

section
variable {s : State}

/-- A block command with round keys completes (rules R187 and R188). -/
theorem blockCommand_completes (d : Direction) (hr : s.rkv = true) :
    blockCommand d s = .next (s.setBlk (feistel s.tables s.blk (keysFor s.rk d))) := by
  rw [blockCommand, if_neg (by simp [hr])]

/-- A block command without round keys is refused. -/
theorem blockCommand_refused (d : Direction) (hr : s.rkv = false) :
    blockCommand d s = .next (latched .nokey s) := by
  rw [blockCommand, if_pos hr, refuse_eq_latched]

/-- A block command and then one that reads the keys the other way round leave the state as it was. -/
theorem blockCommand_undone {d e : Direction} (hr : s.rkv = true)
    (hkeys : keysFor s.rk e = (keysFor s.rk d).reverse) :
    ∃ t, blockCommand d s = .next t ∧ blockCommand e t = .next s := by
  refine ⟨_, blockCommand_completes d hr, ?_⟩
  rw [blockCommand_completes e (by simpa using hr), State.setBlk_tables, State.setBlk_rk, State.setBlk_blk, hkeys,
    feistel_reverse]
  rfl

end

/-- Settles O41: the two branches of the block command. -/
theorem blkencTransformsTheBlockRegister : Obligations.BlkencTransformsTheBlockRegister :=
  ⟨decodeWord_encode .blkenc, fun _ => ⟨blockCommand_completes .encrypt, blockCommand_refused .encrypt⟩⟩

/-- Settles O42: the two branches of the block command. -/
theorem blkdecTransformsTheBlockRegister : Obligations.BlkdecTransformsTheBlockRegister :=
  ⟨decodeWord_encode .blkdec, fun _ => ⟨blockCommand_completes .decrypt, blockCommand_refused .decrypt⟩⟩

/-- Settles O43: the two directions read the keys in opposite orders (`blockCommand_undone`). -/
theorem blockCommandsUndoEachOther : Obligations.BlockCommandsUndoEachOther := fun s hr =>
  ⟨blockCommand_undone (d := .encrypt) (e := .decrypt) hr rfl,
    blockCommand_undone (d := .decrypt) (e := .encrypt) hr (List.reverse_reverse s.rk.toList).symm⟩

/-! ### Equal blocks of a message -/

/-- The chunk that the framing loop reads for a block is the block of the message, padded (rule R204). -/
theorem memReadPadded_chunk (m : Memory) (n j : Nat) :
    memReadPadded m (8 * j) (chunkLength n j) = messageBlock m n j := by
  refine packBlock_congr fun k hk => ?_
  have hchunk : k < chunkLength n j ↔ 8 * j + k < n := by unfold chunkLength; omega
  simp only [hchunk]

/-- What a message command leaves in the buffer, in the words of the statements (rules R202 to R208). -/
theorem transformedMessage_crypt {s : State} (d : Direction) (hwf : Memory.wf s.mbuf = true) :
    TransformedMessage s.tables (keysFor s.rk d) s.mlen.val s.mbuf (crypt d s) := by
  obtain ⟨hrising, -⟩ := (Memory.wf_iff _).1 hwf
  refine ⟨fun i hi => ?_, fun i hi => ?_⟩
  · have hblocks : i < 8 * blockCount s.mlen.val := by unfold blockCount; omega
    rw [crypt, read_cryptBlocks _ _ _ _ hrising, if_pos ⟨hblocks, hi⟩, memReadPadded_chunk]
  · rw [crypt, read_cryptBlocks _ _ _ _ hrising, if_neg (by omega)]

/-- A whole block of a message is its eight bytes, wherever it stands. -/
theorem messageBlock_congr {m : Memory} {n j j' : Nat} (hj : 8 * j + 8 ≤ n) (hj' : 8 * j' + 8 ≤ n)
    (h : ∀ k, k < 8 → Memory.read m (8 * j + k) = Memory.read m (8 * j' + k)) :
    messageBlock m n j = messageBlock m n j' := by
  refine packBlock_congr fun k hk => ?_
  rw [if_pos (by omega), if_pos (by omega), h k hk]

/-- The bytes that replace a whole block are those of its transformed block. -/
theorem read_of_transformedMessage {t : Tables} {ks : List RoundKey} {n j k : Nat} {m m' : Memory}
    (h : TransformedMessage t ks n m m') (hj : 8 * j + 8 ≤ n) (hk : k < 8) :
    Memory.read m' (8 * j + k) = blockByte (feistel t (messageBlock m n j) ks) k := by
  obtain ⟨hbytes, -⟩ := h
  rw [hbytes _ (by omega), show (8 * j + k) / 8 = j by omega, show (8 * j + k) % 8 = k by omega]

/-- Settles O49: both output blocks are the transform of one and the same block (`messageBlock_congr`). -/
theorem equalBlocksGiveEqualOutputBlocks : Obligations.EqualBlocksGiveEqualOutputBlocks := by
  intro s i j j' hwf hr hi hj hj' heq
  obtain ⟨d, hd⟩ : ∃ d, exec i = messageCommand d := by
    obtain rfl | rfl := hi
    · exact ⟨.encrypt, rfl⟩
    · exact ⟨.decrypt, rfl⟩
  have hlen : s.mlen ≠ 0 := fun h => by simp [h] at hj
  have hcrypt := transformedMessage_crypt d hwf
  refine ⟨_, (congrFun hd s).trans (messageCommand_completes d hr hlen), fun k hk => ?_⟩
  rw [State.setMbuf_mbuf, read_of_transformedMessage hcrypt hj hk, read_of_transformedMessage hcrypt hj' hk,
    messageBlock_congr hj hj' heq]

end Sys2Proof.Machine
end

section
/-! The message commands: what each leaves in the buffer, how far the two undo each other, and the partial last
block that does not come back (spec/44_message_framing.md rules R200 to R212). -/

namespace Sys2Proof.Machine

open Sys2Proof.Statements

/-! ### One message command -/

section
variable {s : State}

/-- A message command without round keys is refused, whatever the message. -/
theorem messageCommand_refused_without_keys (d : Direction) (hr : s.rkv = false) :
    messageCommand d s = .next (latched .nokey s) := by
  rw [messageCommand, if_pos hr, refuse_eq_latched]

/-- A message command with round keys and no message is refused. -/
theorem messageCommand_refused_without_message (d : Direction) (hr : s.rkv = true) (hm : s.mlen.val = 0) :
    messageCommand d s = .next (latched .msg s) := by
  rw [messageCommand, if_neg (by simp [hr]), if_pos (Fin.ext hm), refuse_eq_latched]

/-- A message command keeps the canonical form of the buffer. -/
theorem wf_crypt (d : Direction) (hwf : Memory.wf s.mbuf = true) : Memory.wf (crypt d s) = true :=
  wf_cryptBlocks _ _ _ _ (Nat.le_of_lt_succ s.mlen.isLt) hwf _ le_rfl

/-- A message command with round keys and a message transforms the message in place (rules R202 to R208). -/
theorem messageCommand_transforms (d : Direction) (hwf : Memory.wf s.mbuf = true) (hr : s.rkv = true)
    (hm : s.mlen.val ≠ 0) :
    ∃ m, messageCommand d s = .next { s with mbuf := m } ∧ Memory.wf m = true ∧
      TransformedMessage s.tables (keysFor s.rk d) s.mlen s.mbuf m :=
  ⟨crypt d s, messageCommand_completes d hr (mt (congrArg Fin.val) hm), wf_crypt d hwf,
    transformedMessage_crypt d hwf⟩

end

/-- Settles O44: the three branches of the message command, with the keys in order. -/
theorem msgencTransformsTheMessage : Obligations.MsgencTransformsTheMessage :=
  ⟨decodeWord_encode .msgenc, fun _ hwf => ⟨messageCommand_transforms .encrypt hwf,
    messageCommand_refused_without_keys .encrypt, messageCommand_refused_without_message .encrypt⟩⟩

/-- Settles O45: the three branches of the message command, with the keys reversed. -/
theorem msgdecTransformsTheMessage : Obligations.MsgdecTransformsTheMessage :=
  ⟨decodeWord_encode .msgdec, fun _ hwf => ⟨messageCommand_transforms .decrypt hwf,
    messageCommand_refused_without_keys .decrypt, messageCommand_refused_without_message .decrypt⟩⟩

/-! ### The round trip -/

section
variable {t : Tables} {ks : List RoundKey} {n j a : Nat} {m m' m'' : Memory}

/-- A byte of the message stands in its block (rule R203). -/
theorem blockByte_messageBlock (ha : a < n) : blockByte (messageBlock m n (a / 8)) (a % 8) = Memory.read m a := by
  rw [messageBlock, blockByte_packBlock _ _ (by omega), Nat.div_add_mod, if_pos ha]

/-- A whole block of the transformed message is the transform of the block: nothing of it is cut off. -/
theorem messageBlock_of_transformedMessage (h : TransformedMessage t ks n m m') (hj : 8 * j + 8 ≤ n) :
    messageBlock m' n j = feistel t (messageBlock m n j) ks := by
  rw [← packBlock_blockByte (feistel t (messageBlock m n j) ks), messageBlock]
  refine packBlock_congr fun k hk => ?_
  rw [if_pos (by omega), read_of_transformedMessage h hj hk]

/-- Transforming again with the keys reversed brings back the whole blocks of the message (`feistel_reverse`) and
what neither transform touches. -/
theorem read_of_transformedMessage_reverse (h : TransformedMessage t ks n m m')
    (h' : TransformedMessage t ks.reverse n m' m'') (ha : a < 8 * (n / 8) ∨ n ≤ a) :
    Memory.read m'' a = Memory.read m a := by
  obtain ⟨hbytes', hkept'⟩ := h'
  rcases ha with ha | ha
  · rw [hbytes' a (by omega), messageBlock_of_transformedMessage h (by omega), feistel_reverse,
      blockByte_messageBlock (by omega)]
  · obtain ⟨-, hkept⟩ := h
    rw [hkept' a ha, hkept a ha]

end

/-- A message command and then one that reads the keys the other way round bring back all but a partial last block. -/
theorem messageCommand_undone {s : State} {d e : Direction} (hkeys : keysFor s.rk e = (keysFor s.rk d).reverse)
    (hwf : Memory.wf s.mbuf = true) (hr : s.rkv = true) (hm : s.mlen.val ≠ 0) :
    ∃ t m, messageCommand d s = .next t ∧ messageCommand e t = .next { s with mbuf := m } ∧ Memory.wf m = true ∧
      ∀ a, a < 8 * (s.mlen.val / 8) ∨ s.mlen.val ≤ a → Memory.read m a = Memory.read s.mbuf a := by
  obtain ⟨m, hfirst, hwfm, htransformed⟩ := messageCommand_transforms d hwf hr hm
  obtain ⟨m', hsecond, hwfm', htransformed'⟩ :=
    messageCommand_transforms (s := { s with mbuf := m }) e hwfm hr hm
  rw [hkeys] at htransformed'
  exact ⟨_, m', hfirst, hsecond, hwfm', fun a => read_of_transformedMessage_reverse htransformed htransformed'⟩

/-- Settles O47: the two directions read the keys in opposite orders (`messageCommand_undone`). -/
theorem wholeBlocksBeforeAPartialOneRoundTrip : Obligations.WholeBlocksBeforeAPartialOneRoundTrip := by
  intro s i j hwf hr hm hij
  simp only [List.mem_cons, Prod.mk.injEq, List.not_mem_nil, or_false] at hij
  obtain ⟨rfl, rfl⟩ | ⟨rfl, rfl⟩ := hij
  · exact messageCommand_undone (d := .encrypt) (e := .decrypt) rfl hwf hr hm
  · exact messageCommand_undone (d := .decrypt) (e := .encrypt) (List.reverse_reverse _).symm hwf hr hm

/-- Settles O46: in a message of whole blocks no byte is left out of the general round trip (O47), so the canonical
buffer is the same. -/
theorem wholeBlockMessageRoundTrip : Obligations.WholeBlockMessageRoundTrip := by
  intro s hwf hr hm hwhole
  have hundone : ∀ i j, (i, j) ∈ [(Instr.msgenc, Instr.msgdec), (.msgdec, .msgenc)] →
      ∃ t, exec i s = .next t ∧ exec j t = .next s := by
    intro i j hij
    obtain ⟨t, m, hfirst, hsecond, hwfm, hread⟩ := wholeBlocksBeforeAPartialOneRoundTrip s i j hwf hr hm hij
    obtain rfl : m = s.mbuf := Memory.ext_of_wf hwfm hwf fun a => hread a (by omega)
    exact ⟨t, hfirst, hsecond⟩
  exact ⟨hundone .msgenc .msgdec (by simp), hundone .msgdec .msgenc (by simp)⟩

/-! ### The partial last block -/

/-- The tables of seed 0, the round keys of key 0, and a message of one zero byte. -/
def oneZeroByte : State :=
  { State.reset with
    tables := generate Config.prng 0#32
    tblv := true
    rk := schedule 0#64 (generate Config.prng 0#32).pc1 (generate Config.prng 0#32).pc2 Config.shifts
    rkv := true
    mlen := 1 }

theorem inv_oneZeroByte : oneZeroByte.Inv where
  buffer := Memory.wf_nil
  keysNeedTables _ := rfl
  tablesOfSeed _ := rfl
  tablesLegal _ := (generatedTablesAreLegal Config.prng 0#32).1
  keysOfSchedule _ := rfl
  tablesReset := nofun
  keysReset := nofun

/-- The seven bytes cut off the ciphertext are lost: `MSGDEC` pads with zeros in their place. -/
theorem read_crypt_crypt_oneZeroByte :
    Memory.read (crypt .decrypt (oneZeroByte.setMbuf (crypt .encrypt oneZeroByte))) 0 ≠
      Memory.read oneZeroByte.mbuf 0 := by
  decide +kernel

/-- Settles O48: the one byte of `oneZeroByte` does not come back. -/
theorem partialBlockDoesNotRoundTrip : Obligations.PartialBlockDoesNotRoundTrip := by
  have hr : oneZeroByte.rkv = true := rfl
  have hlen : oneZeroByte.mlen.val = 1 := rfl
  have hm : oneZeroByte.mlen ≠ 0 := fun h => by simp [h] at hlen
  refine ⟨oneZeroByte, oneZeroByte.setMbuf (crypt .encrypt oneZeroByte), _, inv_oneZeroByte, hr, by simp [hlen],
    messageCommand_completes .encrypt hr hm,
    messageCommand_completes (s := oneZeroByte.setMbuf _) .decrypt hr hm, 0, by simp [hlen], ?_⟩
  rw [State.setMbuf_mbuf]
  exact read_crypt_crypt_oneZeroByte

end Sys2Proof.Machine
end

section
/-! The control commands, one outcome each from every state (spec/45_control_commands.md rules R220 to R222). -/

namespace Sys2Proof.Machine

/-- Settles O19: `NOP` has one outcome, the state it is given. -/
theorem nopChangesNothing : Obligations.NopChangesNothing :=
  ⟨decodeWord_encode .nop, fun _ => rfl⟩

/-- Settles O20: `CLRERR` does not look at the latch, so its one outcome is `clearErr`. -/
theorem clrerrClearsOnlyTheLatch : Obligations.ClrerrClearsOnlyTheLatch :=
  ⟨decodeWord_encode .clrerr, fun _ => rfl⟩

/-- Settles O21: `SRST` does not look at the state, so its one outcome is `resetEngine`. -/
theorem srstRestoresTheResetState : Obligations.SrstRestoresTheResetState :=
  ⟨decodeWord_encode .srst, fun _ => rfl⟩

end Sys2Proof.Machine
end

section
/-! The error latch over one step (spec/60_exceptions.md rules R236 and R239), and the step with nothing pending
(rules R248 and R261). -/

namespace Sys2Proof.Machine

open Sys2Proof.Statements

variable {s u : State}

/-! ### What touches a latched error -/

/-- Raising an error over a latched one leaves the first (rule R236). -/
theorem raiseErr_err_of_latched (c : ErrCode) (hl : s.err ≠ .ok) : (raiseErr c s).err = s.err :=
  (raiseErr_err s c).trans (if_neg hl)

theorem blockCommand_keeps_latched {d : Direction} (h : blockCommand d s = .next u) (hl : s.err ≠ .ok) :
    u.err = s.err := by
  obtain ⟨-, rfl⟩ | ⟨-, rfl⟩ := blockCommand_next h
  · exact raiseErr_err_of_latched .nokey hl
  · rfl

theorem messageCommand_keeps_latched {d : Direction} (h : messageCommand d s = .next u) (hl : s.err ≠ .ok) :
    u.err = s.err := by
  obtain ⟨-, rfl⟩ | ⟨-, -, rfl⟩ | ⟨-, -, rfl⟩ := messageCommand_next h
  · exact raiseErr_err_of_latched .nokey hl
  · exact raiseErr_err_of_latched .msg hl
  · rfl

/-- A command either leaves a latched error or is `CLRERR` or `SRST`, which clear it (rules R239 and R260). -/
theorem exec_keeps_or_clears_latched {i : Instr} (h : exec i s = .next u) (hl : s.err ≠ .ok) :
    u.err = s.err ∨ u.err = .ok ∧ (i = .clrerr ∨ i = .srst) := by
  cases i with
  | nop => rw [execNop_next h]; exact .inl rfl
  | gen =>
    obtain ⟨-, rfl⟩ | ⟨-, rfl⟩ := execGen_next h
    · exact .inl (raiseErr_err_of_latched .locked hl)
    · exact .inl rfl
  | ksched =>
    obtain ⟨-, rfl⟩ | ⟨-, -, rfl⟩ | ⟨-, -, rfl⟩ := execKsched_next h
    · exact .inl (raiseErr_err_of_latched .notbl hl)
    · exact .inl (raiseErr_err_of_latched .key hl)
    · exact .inl rfl
  | clrerr => rw [execClrerr_next h]; exact .inr ⟨rfl, .inl rfl⟩
  | blkenc => exact .inl (blockCommand_keeps_latched h hl)
  | blkdec => exact .inl (blockCommand_keeps_latched h hl)
  | msgenc => exact .inl (messageCommand_keeps_latched h hl)
  | msgdec => exact .inl (messageCommand_keeps_latched h hl)
  | srst => rw [execSrst_next h]; exact .inr ⟨rfl, .inr rfl⟩

/-- An operation either leaves a latched error or is one of the three that clear it. -/
theorem Handled.keeps_or_clears_latched {op : HostOp} {r : Resp} (h : Handled s op u r) (hl : s.err ≠ .ok) :
    u.err = s.err ∨ u.err = .ok ∧ (op = .write 0x0004#16 (.b32 0x00000003#32) ∨
      op = .hardReset ∨ op = .write 0x0004#16 (.b32 0x000000FF#32)) := by
  cases h with
  | byte off v l hoff => cases l <;> exact .inl rfl
  | seed v =>
    unfold writeSeed
    split
    · exact .inl (raiseErr_err_of_latched .locked hl)
    · exact .inl rfl
  | mlen v =>
    unfold writeMlen
    split
    · exact .inl rfl
    · exact .inl (raiseErr_err_of_latched .range hl)
  | illegal w e hw => exact .inl (raiseErr_err_of_latched .illcmd hl)
  | command w i u hw hu =>
    obtain rfl : encode i = w := encode_of_decodeWord hw
    obtain hkept | ⟨hok, rfl | rfl⟩ := exec_keeps_or_clears_latched hu hl
    · exact .inl hkept
    · exact .inr ⟨hok, .inl rfl⟩
    · exact .inr ⟨hok, .inr (.inr rfl)⟩
  | reset => exact .inr ⟨rfl, .inr (.inl rfl)⟩
  | _ => exact .inl rfl

/-! ### The step -/

/-- Settles O52: the step handles one operation, and taking it off the list and answering it leave the latch. -/
theorem firstErrorIsKeptUntilAcknowledged : Obligations.FirstErrorIsKeptUntilAcknowledged := by
  intro s t hl hstep
  obtain ⟨-, rfl⟩ | ⟨op, rest, u, r, hp, hu, rfl⟩ := step_cases hstep
  · exact .inl rfl
  obtain hkept | ⟨hok, hclr | hreset⟩ := hu.keeps_or_clears_latched hl
  · exact .inl hkept
  · exact .inr ⟨hok, .inl (by simp [CommandsNext, hp, hclr])⟩
  · exact .inr ⟨hok, .inr (resetsNext_of_pending hp hreset)⟩

/-- Settles O6: with an empty list `advance` takes no operation and answers the state itself. -/
theorem idleWhileNothingIsPending : Obligations.IdleWhileNothingIsPending := by
  intro s hp
  unfold step advance
  rw [hp]

end Sys2Proof.Machine
end

section
/-! The two ways to reset the engine (spec/70_reset_and_hazards.md rule R260). -/

namespace Sys2Proof.Machine

open Sys2Proof.Statements

/-- An operation handled as a reset steps to the reset state: `resetEngine` differs from it only in the ends of the
port, which `StepsTo` does not compare. -/
theorem stepsTo_reset_of_handled {op : HostOp} (h : ∀ s, Handled s op (resetEngine s) .ok) (s : State) :
    StepsTo s op .ok State.reset :=
  Handled.stepsTo (u := resetEngine s) fun rest => h (s.setPending rest)

/-- Settles O18: the reset input is handled as a reset, and the word `0x000000FF` runs `SRST`, whose one outcome is
the same (O21). -/
theorem resetInputHasTheEffectOfSrst : Obligations.ResetInputHasTheEffectOfSrst := by
  obtain ⟨hword, hexec⟩ := srstRestoresTheResetState
  intro s
  exact ⟨stepsTo_reset_of_handled (fun _ => .reset) s,
    stepsTo_reset_of_handled (fun s => .command _ .srst _ hword (hexec s)) s⟩

end Sys2Proof.Machine
end
